-- ==== Sys2Proof/Word.lean ====
section
/-!
DEFINITION. The value types of 00_scope.md rule R6: byte, word, Block, nonce, byte string, and the four-word
register group that the key schedule and the cipher work on (10_state.md rules R31, R32).
-/
namespace Sys2Proof

/-- A byte (rule R6). -/
abbrev Byte := BitVec 8

/-- A word (rule R6). -/
abbrev Word := BitVec 32

/-- A Block: sixteen bytes read as one big-endian 128-bit integer, the `int128` of rule R12.
Byte 0 is the most significant one. -/
abbrev Block := BitVec 128

/-- A nonce of the only legal length, twelve bytes (rule R18), read big-endian like a Block. -/
abbrev Nonce := BitVec 96

/-- A byte string that travels over a port: a command frame (rule R70) or a response frame (rule R71). -/
abbrev Frame := List Byte

/-- Four words `x0, x1, x2, x3`: a Block split into words (rule R8), the key-schedule register `K[0..3]`
(rule R31) or the cipher window `X[0..3]` (rule R32). -/
structure Words4 where
  x0 : Word
  x1 : Word
  x2 : Word
  x3 : Word
  deriving DecidableEq, Repr

end Sys2Proof
end

