-- ==== Sys2Proof/Config.lean ====
section
/-!
DEFINITION. The size parameters of 00_scope.md rule R5 that fix types and formats. The parameters that are values of the
datapath (tables, rotation amounts, counter base, length bounds) stand in `Machine/Params.lean`.
`BUS_PROTOCOL` and `REG_MAP` are open in the spec and no rule depends on them; `ROUND_STRATEGY` is unobservable
(log 9). The hardware leaves no value free that a command can read, so no constant without a body is needed.
-/
namespace Sys2Proof.Config

/-- `KEY_BYTES` (rule R5). -/
abbrev keyBytes : Nat := 16

/-- `BLOCK_BYTES` (rule R5). -/
abbrev blockBytes : Nat := 16

/-- `NONCE_BYTES` (rule R5). -/
abbrev nonceBytes : Nat := 12

/-- `TAG_BYTES` (rule R5). -/
abbrev tagBytes : Nat := 16

/-- `ROUNDS` (rule R5). -/
abbrev rounds : Nat := 32

end Sys2Proof.Config
end

