-- ==== Sys2Proof/Machine/Bytes.lean ====
section
/-!
DEFINITION. Byte strings, byte order, padding and the splitting of byte strings into Blocks: 00_scope.md rules R6 to R12,
20_memory.md rules R53 to R59.
-/
namespace Sys2Proof

/-- `b[k]` of a Block: byte `k`, byte 0 first (rule R6); byte 0 is the most significant one of `int128` (rule R12). -/
def Block.byte (B : Block) (k : Nat) : Byte := B.extractLsb' (8 * (15 - k)) 8

/-- The sixteen bytes of a Block in index order. -/
def bytesOfBlock (B : Block) : List Byte := (List.range Config.blockBytes).map (Block.byte B)

/-- The natural number a byte string spells, most significant byte first ("all integers big-endian", rule R8). -/
def beNat (bs : List Byte) : Nat := bs.foldl (fun n b => 256 * n + b.toNat) 0

/-- The Block whose sixteen bytes are `bs`. -/
def blockOfBytes (bs : List Byte) : Block := BitVec.ofNat 128 (beNat bs)

/-- The nonce whose twelve bytes are `bs`. -/
def nonceOfBytes (bs : List Byte) : Nonce := BitVec.ofNat 96 (beNat bs)

/-- `be32` (rule R8) of a byte string of four bytes. -/
def be32 (bs : List Byte) : Word := BitVec.ofNat 32 (beNat bs)

/-- `bytes32` (rule R8): the four bytes of a word, most significant first. -/
def bytes32 (w : Word) : List Byte :=
  [w.extractLsb' 24 8, w.extractLsb' 16 8, w.extractLsb' 8 8, w.extractLsb' 0 8]

/-- `be64` (rule R8): byte `k` is `(n >> (8*(7-k))) mod 256`. The rule gives it below 2^64; from there on the low 64 bits are the
model's choice (log 16). -/
def be64 (n : Nat) : List Byte := (List.range 8).map fun k => BitVec.ofNat 8 (n >>> (8 * (7 - k)))

/-- `words` (rules R8, R54): a Block as four big-endian words, bytes 0 to 3 first. -/
def words (B : Block) : Words4 :=
  ⟨B.extractLsb' 96 32, B.extractLsb' 64 32, B.extractLsb' 32 32, B.extractLsb' 0 32⟩

/-- `block` (rules R8, R54): the Block made of four words, the bytes of `w0` first. -/
def block (w0 w1 w2 w3 : Word) : Block := w0 ++ w1 ++ w2 ++ w3

/-- `0^n` (rule R6): the byte string of `n` zero bytes. -/
def zeros (n : Nat) : List Byte := List.replicate n 0

/-- `pad16` (rule R11): zero bytes up to the next multiple of sixteen, none when the length is one already. -/
def pad16 (bs : List Byte) : List Byte := bs ++ zeros ((16 - bs.length % 16) % 16)

/-- The first `m` Blocks of a byte string, in order. -/
def takeBlocks : Nat → List Byte → List Block
  | 0, _ => []
  | m + 1, bs => blockOfBytes (bs.take 16) :: takeBlocks m (bs.drop 16)

/-- A byte string of a whole number of Blocks read as its Blocks in order (rule R170). -/
def blocksOf (bs : List Byte) : List Block := takeBlocks (bs.length / 16) bs

/-- `ceil(n / 16)` (rule R11). -/
def ceil16 (n : Nat) : Nat := (n + 15) / 16

/-- The exclusive or of two byte strings byte by byte (rule R9), as long as the shorter one (rule R62: the tail of the
last keystream block is discarded). -/
def xorBytes (a b : List Byte) : List Byte := List.zipWith (· ^^^ ·) a b

/-- `gbit` (rule R12): the coefficient of `x^k` of a field element. -/
def gbit (E : Block) (k : Nat) : Bool := E.getLsbD (127 - k)

end Sys2Proof
end

