-- ==== Sys2Proof/Syntax.lean ====
section
/-!
DEFINITION. The twelve commands as terms (30_encoding.md rules R73, R75), one constructor per row of opcode_table.json,
and the names of opcodes, field kinds and statuses.
-/
namespace Sys2Proof

/-- One command with the values of its operand fields. Operands of kind `var` and `blks` are lists of any length here;
`Instr.wellFormed` says which fit a frame. -/
inductive Instr where
  | sbox (b : Byte)
  | diff (w : Word)
  | cxf (w : Word)
  | ksched (key : List Byte)
  | encb (blk : Block)
  | decb (blk : Block)
  | ksb (nonce : List Byte) (ctr : Word)
  | ctrx (nonce data : List Byte)
  | gfmul (x y : Block)
  | ghash (h : Block) (msg : List Block)
  | aeade (nonce aad pt : List Byte)
  | aeadd (nonce aad ct : List Byte) (tag : Block)
  deriving DecidableEq, Repr

/-- The twelve operations, without operands (rule R75). -/
inductive Op where
  | sbox | diff | cxf | ksched | encb | decb | ksb | ctrx | gfmul | ghash | aeade | aeadd
  deriving DecidableEq, Repr

/-- The operation of a command. -/
def Instr.op : Instr → Op
  | .sbox _ => .sbox
  | .diff _ => .diff
  | .cxf _ => .cxf
  | .ksched _ => .ksched
  | .encb _ => .encb
  | .decb _ => .decb
  | .ksb _ _ => .ksb
  | .ctrx _ _ => .ctrx
  | .gfmul _ _ => .gfmul
  | .ghash _ _ => .ghash
  | .aeade _ _ _ => .aeade
  | .aeadd _ _ _ _ => .aeadd

/-- The kinds of field (rule R72). -/
inductive FieldKind where
  | u8 | w32 | blk | var | blks
  deriving DecidableEq, Repr

/-- A field with its value (rule R72). -/
inductive Field where
  | u8 (b : Byte)
  | w32 (w : Word)
  | blk (B : Block)
  | var (bs : List Byte)
  | blks (Bs : List Block)
  deriving DecidableEq, Repr

/-- The kind of a field. -/
def Field.kind : Field → FieldKind
  | .u8 _ => .u8
  | .w32 _ => .w32
  | .blk _ => .blk
  | .var _ => .var
  | .blks _ => .blks

/-- The operand fields of a command in frame order (rule R73). -/
def Instr.fields : Instr → List Field
  | .sbox b => [.u8 b]
  | .diff w => [.w32 w]
  | .cxf w => [.w32 w]
  | .ksched key => [.var key]
  | .encb blk => [.blk blk]
  | .decb blk => [.blk blk]
  | .ksb nonce ctr => [.var nonce, .w32 ctr]
  | .ctrx nonce data => [.var nonce, .var data]
  | .gfmul x y => [.blk x, .blk y]
  | .ghash h msg => [.blk h, .blks msg]
  | .aeade nonce aad pt => [.var nonce, .var aad, .var pt]
  | .aeadd nonce aad ct tag => [.var nonce, .var aad, .var ct, .blk tag]

/-- The status of a response (60_exceptions.md rule R190). -/
inductive Status where
  | ok
  | invalidKeyLength
  | invalidNonceLength
  | authenticationFailure
  | messageTooLong
  | notScheduled
  | illegalCommand
  deriving DecidableEq, Repr

/-- Why a frame is illegal (30_encoding.md rule R77). The host sees `IllegalCommand` for every one of them (log 6). -/
inductive Illegal where
  /-- The frame has no byte. -/
  | emptyFrame
  /-- The opcode byte is none of the twelve (rule R78). -/
  | reservedOpcode
  /-- The frame ends before its fields do, or a length prefix announces more bytes than remain. -/
  | truncated
  /-- Bytes remain after the last field. -/
  | trailingBytes
  deriving DecidableEq, Repr

/-- The function forms of the document, which carry the key as an argument (30_encoding.md rule R81). -/
inductive DocForm where
  | substitute (b : Byte)
  | diffuse (w : Word)
  | compound (w : Word)
  | scheduleKey (key : List Byte)
  | encrypt (key : List Byte) (blk : Block)
  | decrypt (key : List Byte) (blk : Block)
  | keystreamBlock (key nonce : List Byte) (ctr : Word)
  | hashSubkey (key : List Byte)
  | tagMask (key nonce : List Byte)
  | ghash (h : Block) (msg : List Block)
  | aeadEncrypt (key nonce aad pt : List Byte)
  | aeadDecrypt (key nonce aad ct : List Byte) (tag : Block)
  deriving DecidableEq, Repr

end Sys2Proof
end

