-- ==== Sys2Proof/WellFormed.lean ====
section
/-!
DEFINITION. Which command terms a frame can carry (30_encoding.md rule R72): the length prefix of a `var` field and the
block count of a `blks` field are below 2^64. A wrong key or nonce length is not ill-formed (rule R77): the frame decodes
and the command raises a status.
-/
namespace Sys2Proof

/-- The value of a field fits its encoding (rule R72). -/
def Field.wellFormed : Field → Bool
  | .u8 _ => true
  | .w32 _ => true
  | .blk _ => true
  | .var bs => decide (bs.length < 2 ^ 64)
  | .blks Bs => decide (Bs.length < 2 ^ 64)

/-- Every operand field of the command fits its encoding. -/
def Instr.wellFormed (i : Instr) : Bool := i.fields.all Field.wellFormed

end Sys2Proof
end

