-- ==== Sys2Proof/Decode.lean ====
section
/-!
DEFINITION. The opcode map (30_encoding.md rule R75), the total decoder (rule R76), the encoder (rules R70, R72, R73), and
the reading of a row of opcode_table.json as a frame.
-/
namespace Sys2Proof

/-- The opcode byte of an operation (rule R75). -/
def Op.code : Op → Byte
  | .sbox => 0x01
  | .diff => 0x02
  | .cxf => 0x03
  | .ksched => 0x10
  | .encb => 0x20
  | .decb => 0x21
  | .ksb => 0x30
  | .ctrx => 0x31
  | .gfmul => 0x40
  | .ghash => 0x41
  | .aeade => 0x50
  | .aeadd => 0x51

/-- The twelve operations in the order of rule R75. -/
def Op.all : List Op :=
  [.sbox, .diff, .cxf, .ksched, .encb, .decb, .ksb, .ctrx, .gfmul, .ghash, .aeade, .aeadd]

/-- The operation an opcode byte names; the other 244 values name none (rule R78). -/
def opOfByte (b : Byte) : Option Op := Op.all.find? fun op => op.code == b

/-- The command formats (rule R73): the kinds of the fields after the opcode, in frame order. -/
def Op.format : Op → List FieldKind
  | .sbox => [.u8]
  | .diff => [.w32]
  | .cxf => [.w32]
  | .ksched => [.var]
  | .encb => [.blk]
  | .decb => [.blk]
  | .ksb => [.var, .w32]
  | .ctrx => [.var, .var]
  | .gfmul => [.blk, .blk]
  | .ghash => [.blk, .blks]
  | .aeade => [.var, .var, .var]
  | .aeadd => [.var, .var, .var, .blk]

/-- "need k bytes" (rule R76): the next `k` bytes and the rest. Every reader below answers a value and what follows it in the
frame, or the reason to refuse. -/
def needBytes (k : Nat) (bs : List Byte) : Except Illegal (List Byte × List Byte) :=
  if k ≤ bs.length then .ok (bs.take k, bs.drop k) else .error .truncated

/-- Read a `u8` field (rule R76). -/
def readU8 (bs : List Byte) : Except Illegal (Byte × List Byte) :=
  match bs with
  | [] => .error .truncated
  | b :: rest => .ok (b, rest)

/-- Read a `w32` field (rule R76). -/
def readW32 (bs : List Byte) : Except Illegal (Word × List Byte) := do
  let (f, rest) ← needBytes 4 bs
  .ok (be32 f, rest)

/-- Read a `blk` field (rule R76). -/
def readBlk (bs : List Byte) : Except Illegal (Block × List Byte) := do
  let (f, rest) ← needBytes 16 bs
  .ok (blockOfBytes f, rest)

/-- Read a `var` field (rule R76): an 8-byte big-endian length, then so many bytes. -/
def readVar (bs : List Byte) : Except Illegal (List Byte × List Byte) := do
  let (n, rest) ← needBytes 8 bs
  needBytes (beNat n) rest

/-- Read a `blks` field (rule R76): an 8-byte big-endian block count, then so many Blocks. -/
def readBlks (bs : List Byte) : Except Illegal (List Block × List Byte) := do
  let (m, rest) ← needBytes 8 bs
  let (f, rest) ← needBytes (16 * beNat m) rest
  .ok (takeBlocks (beNat m) f, rest)

/-- Read the operand fields of an operation in the order of its format (rules R73, R76). -/
def readOperands (op : Op) (bs : List Byte) : Except Illegal (Instr × List Byte) :=
  match op with
  | .sbox => do let (b, bs) ← readU8 bs; .ok (.sbox b, bs)
  | .diff => do let (w, bs) ← readW32 bs; .ok (.diff w, bs)
  | .cxf => do let (w, bs) ← readW32 bs; .ok (.cxf w, bs)
  | .ksched => do let (key, bs) ← readVar bs; .ok (.ksched key, bs)
  | .encb => do let (blk, bs) ← readBlk bs; .ok (.encb blk, bs)
  | .decb => do let (blk, bs) ← readBlk bs; .ok (.decb blk, bs)
  | .ksb => do
    let (nonce, bs) ← readVar bs
    let (ctr, bs) ← readW32 bs
    .ok (.ksb nonce ctr, bs)
  | .ctrx => do
    let (nonce, bs) ← readVar bs
    let (data, bs) ← readVar bs
    .ok (.ctrx nonce data, bs)
  | .gfmul => do
    let (x, bs) ← readBlk bs
    let (y, bs) ← readBlk bs
    .ok (.gfmul x y, bs)
  | .ghash => do
    let (h, bs) ← readBlk bs
    let (msg, bs) ← readBlks bs
    .ok (.ghash h msg, bs)
  | .aeade => do
    let (nonce, bs) ← readVar bs
    let (aad, bs) ← readVar bs
    let (pt, bs) ← readVar bs
    .ok (.aeade nonce aad pt, bs)
  | .aeadd => do
    let (nonce, bs) ← readVar bs
    let (aad, bs) ← readVar bs
    let (ct, bs) ← readVar bs
    let (tag, bs) ← readBlk bs
    .ok (.aeadd nonce aad ct tag, bs)

/-- Nothing may remain after the last field (rules R76, R77). -/
def endOfFrame : Instr × List Byte → Except Illegal Instr
  | (i, []) => .ok i
  | (_, _ :: _) => .error .trailingBytes

/-- The decoder of rule R76, total on every byte string. -/
def decode (F : Frame) : Except Illegal Instr :=
  match F with
  | [] => .error .emptyFrame
  | b :: bs =>
    match opOfByte b with
    | none => .error .reservedOpcode
    | some op => readOperands op bs >>= endOfFrame

/-- The bytes of a field (rule R72). -/
def Field.encode : Field → List Byte
  | .u8 b => [b]
  | .w32 w => bytes32 w
  | .blk B => bytesOfBlock B
  | .var bs => be64 bs.length ++ bs
  | .blks Bs => be64 Bs.length ++ Bs.flatMap bytesOfBlock

/-- The command frame of a command (rules R70, R73): the opcode byte, then the fields with nothing between them. -/
def encode (i : Instr) : Frame := i.op.code :: i.fields.flatMap Field.encode

/-- The length in bytes of a command's frame (rule R73, third column). -/
def Instr.frameLength : Instr → Nat
  | .sbox _ => 2
  | .diff _ => 5
  | .cxf _ => 5
  | .ksched key => 9 + key.length
  | .encb _ => 17
  | .decb _ => 17
  | .ksb nonce _ => 13 + nonce.length
  | .ctrx nonce data => 17 + nonce.length + data.length
  | .gfmul _ _ => 33
  | .ghash _ msg => 25 + 16 * msg.length
  | .aeade nonce aad pt => 25 + nonce.length + aad.length + pt.length
  | .aeadd nonce aad ct _ => 41 + nonce.length + aad.length + ct.length

/-- Where the fields of a format end in a frame, the first of them starting at `pos`; bytes the frame lacks read as zero
(log 12). -/
def endOfFields (F : Frame) : List FieldKind → Nat → Nat
  | [], pos => pos
  | .u8 :: ks, pos => endOfFields F ks (pos + 1)
  | .w32 :: ks, pos => endOfFields F ks (pos + 4)
  | .blk :: ks, pos => endOfFields F ks (pos + 16)
  | .var :: ks, pos =>
    endOfFields F ks (pos + 8 + beNat ((List.range 8).map fun k => F.getD (pos + k) 0))
  | .blks :: ks, pos =>
    endOfFields F ks (pos + 8 + 16 * beNat ((List.range 8).map fun k => F.getD (pos + k) 0))

/-- The frame of a table row whose `nbits` bits are `w`, byte 0 in bits 7:0: the row's bytes, then zero bytes up to the
length that the opcode and the length prefixes imply (log 12). -/
def frameOfTableWord (nbits w : Nat) : Frame :=
  let F : Frame := (List.range (nbits / 8)).map fun k => BitVec.ofNat 8 (w >>> (8 * k))
  match F.head? >>= opOfByte with
  | none => F
  | some op => F ++ zeros (endOfFields F op.format 1 - F.length)

/-- The command the decoder reads from a table row's bits, none where it refuses. -/
def decodeTableWord (nbits w : Nat) : Option Instr :=
  match decode (frameOfTableWord nbits w) with
  | .ok i => some i
  | .error _ => none

end Sys2Proof
end

