-- ==== Sys2Proof/Machine/State.lean ====
section
/-!
DEFINITION. The state of the CORE (10_state.md, 70_reset_and_hazards.md rules R220, R221), and the reasons a step could stop.
-/
namespace Sys2Proof.Machine

/-- What the host presents to the command port, one at a time, between commands (log 1). -/
inductive HostInput where
  /-- A command frame, legal or not (30_encoding.md rule R70). -/
  | command (F : Frame)
  /-- A reset (rules R220, R223; log 5). -/
  | reset
  deriving DecidableEq, Repr

/-- The registers of a key context (rule R29). -/
structure KeyContext where
  /-- `RK[0..31]` (rule R22). -/
  rk : Vector Word 32
  /-- `H` (rule R23). -/
  h : Block
  deriving DecidableEq, Repr

/-- The state of the CORE and what the host still presents to it. -/
structure State where
  /-- `(RK, H, SCHED)`: `none` is the spec's state "no key context" (rule R220), in which `SCHED = 0` and `RK` and `H`
  "hold no value" (rule R24) and are modelled "as absent" (rule R42); `some` is `SCHED = 1`. -/
  keyCtx : Option KeyContext
  /-- What the host still presents, oldest first: the head is at the command port (rules R39, R45). The list is the
  model's own, the CORE has no queue (rule R36; log 1). -/
  inputs : List HostInput
  /-- The response frames answered since the last reset, oldest first: what came out of the response port (rules R39, R45),
  the observation of a run (rule R236; log 2). -/
  responses : List Frame
  deriving DecidableEq, Repr

/-- The reasons the machine stops with a fault: none. What the spec calls an error is a status in a response frame, after which
the CORE goes on (60_exceptions.md rules R198, R200), and every byte string is answered (rule R71). Nobody raises a
fault, so the type is safe (log 10). -/
inductive Fault where
  deriving DecidableEq, Repr

/-- The reasons a step is refused. -/
inductive Refusal where
  /-- The instruction has no meaning yet. Raised by an arm of `exec` alone; safe, since nothing is claimed. No arm raises
  it: all twelve commands are modelled. -/
  | notModelled (mnemonic : String)
  deriving DecidableEq, Repr

/-- The machine after reset (rules R41 to R45, R220, R221): no key context, no response pending; nothing presented yet
(rule R222). -/
def State.reset : State := { keyCtx := none, inputs := [], responses := [] }

/-- What a meaning answers. -/
abbrev Answer := Host.Outcome State Fault Refusal

end Sys2Proof.Machine
end

