-- ==== Sys2Proof/Machine/Ops.lean ====
section
/-!
DEFINITION. The operations every meaning is made of: answering a command with `OK` or with an error status, installing a key
context, resetting, and doing nothing. The machine has no memory (20_memory.md rule R50) and no register file that an
operand names (10_state.md rule R37).
-/
namespace Sys2Proof

/-- The status codes (60_exceptions.md rule R190). -/
def Status.code : Status → Byte
  | .ok => 0x00
  | .invalidKeyLength => 0x01
  | .invalidNonceLength => 0x02
  | .authenticationFailure => 0x03
  | .messageTooLong => 0x04
  | .notScheduled => 0x05
  | .illegalCommand => 0x06

namespace Machine

/-- A response frame leaves by the response port (rule R71). -/
def State.respond (s : State) (F : Frame) : State := { s with responses := s.responses ++ [F] }

/-- A response frame with status `OK` and its result fields (rules R71, R74). -/
def okFrame (fields : List Field) : Frame := Status.ok.code :: fields.flatMap Field.encode

/-- A command completes: the `OK` response with its result fields (rule R15, last sentences; rule R71). -/
def complete (fields : List Field) (s : State) : Answer := .next (s.respond (okFrame fields))

/-- `raise` (rules R15, R198, R199): the response is the status byte alone, no architectural state changes, nothing is
saved, there is no handler. There is no return to model beside it: the CORE is ready for the next command (rule R200). -/
def raise (st : Status) (s : State) : Answer := .next (s.respond [st.code])

/-- A successful KSCHED writes `RK`, `H` and `SCHED` in one step (rules R29, R113). -/
def State.install (s : State) (c : KeyContext) : State := { s with keyCtx := some c }

/-- Reset between commands (rules R220, R221, R223): the state after reset; what the host presents afterwards is the
host's affair and stays (log 5). -/
def State.afterReset (s : State) : State := { State.reset with inputs := s.inputs }

/-- With nothing presented the CORE executes nothing (rule R222; log 4). -/
def idle (s : State) : Answer := .next s

/-- Reset as a step. -/
def resetCore (s : State) : Answer := .next s.afterReset

/-- The answer to a frame the decoder refuses, whatever the reason (rules R77, R196). -/
def answerIllegal (_ : Illegal) (s : State) : Answer := raise .illegalCommand s

end Machine

end Sys2Proof
end

