-- ==== Sys2Proof/Machine/Flags.lean ====
section
/-!
DEFINITION. `SCHED`, the only flag of the machine (10_state.md rule R24): how a command reads it. It is written by
`State.install` (to 1) and by reset (to 0), and by nothing else.
-/
namespace Sys2Proof.Machine

/-- `SCHED` (rule R24): a key context is installed. -/
def State.sched (s : State) : Bool := s.keyCtx.isSome

/-- The check at the head of every keyed command (60_exceptions.md rule R195): `NotScheduled` when `SCHED = 0`, else go on
with the installed `RK` and `H`. -/
def keyed (s : State) (go : KeyContext → Answer) : Answer :=
  match s.keyCtx with
  | none => raise .notScheduled s
  | some c => go c

end Sys2Proof.Machine
end

