-- ==== Sys2Proof/Machine/Params.lean ====
section
/-!
DEFINITION. The constants of the datapath (10_state.md rules R25 to R28, 00_scope.md rule R5). They are not state and no
command or reset changes them (rule R44). The values of `sboxRows`, `fk`, `ck` and of the rotation amounts of the key schedule
are the spec's, which marks them as general knowledge (log 8).
-/
namespace Sys2Proof.Params

/-- The grid of rule R25: row `r` holds the sixteen entries `SBOX[16r .. 16r+15]`, column 0 first. -/
def sboxRows : List Block :=
  [0xd690e9fecce13db716b614c228fb2c05,
   0x2b679a762abe04c3aa44132649860699,
   0x9c4250f491ef987a33540b43edcfac62,
   0xe4b31ca9c908e89580df94fa758f3fa6] ++
  [0x4707a7fcf37317ba83593c19e6854fa8,
   0x686b81b27164da8bf8eb0f4b70569d35,
   0x1e240e5e6358d1a225227c3b01217887,
   0xd40046579fd327524c3602e7a0c4c89e] ++
  [0xeabf8ad240c738b5a3f7f2cef96115a1,
   0xe0ae5da49b341a55ad933230f58cb1e3,
   0x1df6e22e8266ca60c02923ab0d534e6f,
   0xd5db3745defd8e2f03ff6a726d6c5b51] ++
  [0x8d1baf92bbddbc7f11d95c411f105ad8,
   0x0ac13188a5cd7bbd2d74d012b8e5b4b0,
   0x8969974a0c96777e65b9f109c56ec684,
   0x18f07dec3adc4d2079ee5f3ed7cb3948]

/-- The system parameters `FK[0..3]` (rule R26). -/
def fk : Words4 := ⟨0xA3B1BAC6, 0x56AA3350, 0x677D9197, 0xB27022DC⟩

/-- The round constants `CK[0..31]` (rule R27). -/
def ck : List Word :=
  [0x00070E15, 0x1C232A31, 0x383F464D, 0x545B6269, 0x70777E85, 0x8C939AA1, 0xA8AFB6BD, 0xC4CBD2D9] ++
  [0xE0E7EEF5, 0xFC030A11, 0x181F262D, 0x343B4249, 0x50575E65, 0x6C737A81, 0x888F969D, 0xA4ABB2B9] ++
  [0xC0C7CED5, 0xDCE3EAF1, 0xF8FF060D, 0x141B2229, 0x30373E45, 0x4C535A61, 0x686F767D, 0x848B9299] ++
  [0xA0A7AEB5, 0xBCC3CAD1, 0xD8DFE6ED, 0xF4FB0209, 0x10171E25, 0x2C333A41, 0x484F565D, 0x646B7279]

/-- `GF_REDUCE` (rule R28): the byte XORed into byte 0 of the shifting copy. -/
def gfReduce : Byte := 0xE1

/-- `CTR_BASE` (rule R5, 90_conflicts.md C8): the counter of the tag mask; data blocks start one above it. -/
def ctrBase : Nat := 0

/-- `MAX_DATA_BITS` in bytes (rules R5, R194): 2^36 - 32. -/
def maxDataBytes : Nat := 2 ^ 36 - 32

/-- `MAX_AAD_BYTES` (rules R5, R194). -/
def maxAadBytes : Nat := 2 ^ 61 - 1

end Sys2Proof.Params
end

