-- ==== Sys2Proof/Machine/Operands.lean ====
section
/-!
DEFINITION. The checks on operand lengths (60_exceptions.md rules R191, R192, R194). Operands arrive by value in the frame
(20_memory.md rule R50) and the decoder has read them by kind (30_encoding.md rule R72); there is no other operand form.
-/
namespace Sys2Proof.Machine

/-- A key operand must have sixteen bytes (rule R191). -/
def withKey (key : List Byte) (s : State) (go : Block → Answer) : Answer :=
  if key.length = Config.keyBytes then go (blockOfBytes key) else raise .invalidKeyLength s

/-- A nonce operand must have twelve bytes (rule R192). -/
def withNonce (nonce : List Byte) (s : State) (go : Nonce → Answer) : Answer :=
  if nonce.length = Config.nonceBytes then go (nonceOfBytes nonce) else raise .invalidNonceLength s

/-- Plaintext, ciphertext or data, and AAD, must be within their bounds (rule R194). -/
def withinBounds (data aad : List Byte) (s : State) (go : Answer) : Answer :=
  if Params.maxDataBytes < data.length ∨ Params.maxAadBytes < aad.length then raise .messageTooLong s else go

end Sys2Proof.Machine
end

