-- ==== Sys2Proof/Machine/Substitution.lean ====
section
/-!
DEFINITION. 40_sbox_diffusion.md: substitution table, linear diffusion, compound transform, the fused form of the latter, and
the commands SBOX, DIFF, CXF.
-/
namespace Sys2Proof.Machine

/-- `S` (rule R90): `SBOX[b]`, row the high nibble, column the low nibble (rule R25). -/
def substitute (b : Byte) : Byte :=
  Block.byte (Params.sboxRows.getD (b.extractLsb' 4 4).toNat 0) (b.extractLsb' 0 4).toNat

/-- `L` (rule R91). -/
def diffuse (x : Word) : Word :=
  x ^^^ x.rotateLeft 2 ^^^ x.rotateLeft 10 ^^^ x.rotateLeft 18 ^^^ x.rotateLeft 24

/-- `tau` (rules R56, R92): the four bytes substituted in place. -/
def tau (w : Word) : Word :=
  substitute (w.extractLsb' 24 8) ++ substitute (w.extractLsb' 16 8) ++
    substitute (w.extractLsb' 8 8) ++ substitute (w.extractLsb' 0 8)

/-- `T` (rule R93), the compound transform of the cipher rounds. -/
def compound (w : Word) : Word := diffuse (tau w)

/-- The fused tables `T0` to `T3` (rule R98): entry `b` of table `k`. Not state (10_state.md rule R35). -/
def fusedTable (k : Nat) (b : Byte) : Word := diffuse ((substitute b).setWidth 32 <<< (8 * (3 - k)))

/-- The compound transform by table look-ups (rules R98, R128). -/
def compoundFused (w : Word) : Word :=
  fusedTable 0 (w.extractLsb' 24 8) ^^^ fusedTable 1 (w.extractLsb' 16 8) ^^^
    fusedTable 2 (w.extractLsb' 8 8) ^^^ fusedTable 3 (w.extractLsb' 0 8)

/-- SBOX (rule R94). -/
def execSbox (b : Byte) (s : State) : Answer := complete [.u8 (substitute b)] s

/-- DIFF (rule R95). -/
def execDiff (w : Word) (s : State) : Answer := complete [.w32 (diffuse w)] s

/-- CXF (rule R96). -/
def execCxf (w : Word) (s : State) : Answer := complete [.w32 (compound w)] s

end Sys2Proof.Machine
end

