-- ==== Sys2Proof/Machine/Cipher.lean ====
section
/-!
DEFINITION. 42_block_cipher.md: the 32-round Feistel network and the commands ENCB, DECB.
-/
namespace Sys2Proof.Machine

/-- `F` (rule R120). -/
def roundFunction (x0 x1 x2 x3 k : Word) : Word := x0 ^^^ compound (x1 ^^^ x2 ^^^ x3 ^^^ k)

/-- One round of the network (rule R121): the window shifts by one word. -/
def feistelRound (X : Words4) (k : Word) : Words4 :=
  ⟨X.x1, X.x2, X.x3, roundFunction X.x0 X.x1 X.x2 X.x3 k⟩

/-- `feistel` (rule R121): a round per key, then the four words in reverse order (90_conflicts.md C2). -/
def feistel (ks : List Word) (B : Block) : Block :=
  let X := ks.foldl feistelRound (words B)
  block X.x3 X.x2 X.x1 X.x0

/-- `enc_with` (rule R122): the round keys in their order. -/
def encWith (rk : Vector Word 32) (B : Block) : Block := feistel rk.toList B

/-- `dec_with` (rule R123): the round keys last to first (rule R116). -/
def decWith (rk : Vector Word 32) (B : Block) : Block := feistel rk.toList.reverse B

/-- ENCB (rule R124). -/
def execEncb (blk : Block) (s : State) : Answer :=
  keyed s fun c => complete [.blk (encWith c.rk blk)] s

/-- DECB (rule R125). -/
def execDecb (blk : Block) (s : State) : Answer :=
  keyed s fun c => complete [.blk (decWith c.rk blk)] s

end Sys2Proof.Machine
end

