-- ==== Sys2Proof/Machine/Counter.lean ====
section
/-!
DEFINITION. 43_ctr_keystream.md: the counter-mode keystream and the commands KSB, CTRX.
-/
namespace Sys2Proof.Machine

/-- `ctr_block` (rules R57, R135): the nonce in bytes 0 to 11, the counter in bytes 12 to 15. -/
def ctrBlock (N : Nonce) (c : Word) : Block := N ++ c

/-- `ks_block` (rule R136). -/
def ksBlock (rk : Vector Word 32) (N : Nonce) (c : Word) : Block := encWith rk (ctrBlock N c)

/-- The counter of the data block of index `j`, a natural number (rules R20, R137); below 2^32 for every message within
the bound (rule R142; log 7). -/
def dataCounter (j : Nat) : Nat := Params.ctrBase + 1 + j

/-- The next `m` blocks of `ctr_xor`, from block index `j` on (rule R137). -/
def ctrXorBlocks (rk : Vector Word 32) (N : Nonce) : Nat → Nat → List Byte → List Byte
  | 0, _, _ => []
  | m + 1, j, D =>
    xorBytes (D.take 16) (bytesOfBlock (ksBlock rk N (BitVec.ofNat 32 (dataCounter j)))) ++
      ctrXorBlocks rk N m (j + 1) (D.drop 16)

/-- `ctr_xor` (rules R62, R137): `ceil(n/16)` keystream blocks, the last one truncated. -/
def ctrXor (rk : Vector Word 32) (N : Nonce) (D : List Byte) : List Byte :=
  ctrXorBlocks rk N (ceil16 D.length) 0 D

/-- KSB (rule R138): every counter value is accepted, 0 included (rule R227). -/
def execKsb (nonce : List Byte) (ctr : Word) (s : State) : Answer :=
  keyed s fun c => withNonce nonce s fun N => complete [.blk (ksBlock c.rk N ctr)] s

/-- CTRX (rule R139). -/
def execCtrx (nonce data : List Byte) (s : State) : Answer :=
  keyed s fun c => withNonce nonce s fun N =>
    withinBounds data [] s (complete [.var (ctrXor c.rk N data)] s)

end Sys2Proof.Machine
end

