-- ==== Sys2Proof/Machine/Galois.lean ====
section
/-!
DEFINITION. 44_galois_hash.md: the GF(2^128) multiplier, the universal hash and the commands GFMUL, GHASH.
-/
namespace Sys2Proof.Machine

/-- The shifting copy after one bit (rule R150): shifted right by one, and when a bit is carried out `GF_REDUCE` is XORed into
byte 0. -/
def gfShift (V : Block) : Block :=
  if V.getLsbD 0 then (V >>> 1) ^^^ (Params.gfReduce ++ (0 : BitVec 120)) else V >>> 1

/-- One bit of the multiplication (rule R150): product `Z`, shifting copy `V`. -/
def gfStep (X : Block) (ZV : Block × Block) (k : Nat) : Block × Block :=
  (if gbit X k then ZV.1 ^^^ ZV.2 else ZV.1, gfShift ZV.2)

/-- `gf_mul` (rule R150): the 128 bits of the first operand, most significant first. -/
def gfMul (X Y : Block) : Block := ((List.range 128).foldl (gfStep X) (0, Y)).1

/-- `ghash` (rule R151): the accumulator is the first operand of each product, the hash key the second. -/
def ghash (Hk : Block) (M : List Block) : Block := M.foldl (fun Y B => gfMul (Y ^^^ B) Hk) 0

/-- GFMUL (rule R152). -/
def execGfmul (x y : Block) (s : State) : Answer := complete [.blk (gfMul x y)] s

/-- GHASH (rule R153): under the operand `h`, not the register `H`. -/
def execGhash (h : Block) (msg : List Block) (s : State) : Answer := complete [.blk (ghash h msg)] s

end Sys2Proof.Machine
end

