-- ==== Sys2Proof/Machine/Aead.lean ====
section
/-!
DEFINITION. 45_aead.md: authenticated encryption and decryption and the commands AEADE, AEADD.
-/
namespace Sys2Proof.Machine

/-- The length trailer (20_memory.md rule R58): the lengths of the unpadded strings in bits. For a string of 2^61 bytes or more,
which no command passes on, the spec defines none (91_not_in_source.md N13): the low 64 bits are the model's choice (log 16). -/
def lengthTrailer (A C : List Byte) : List Byte := be64 (8 * A.length) ++ be64 (8 * C.length)

/-- `hash_input` (rule R170): AAD and ciphertext padded separately, then the trailer. -/
def hashInput (A C : List Byte) : List Byte := pad16 A ++ pad16 C ++ lengthTrailer A C

/-- `J0` (rule R171): the tag mask, the keystream block of counter `CTR_BASE`. -/
def tagMask (rk : Vector Word 32) (N : Nonce) : Block := ksBlock rk N (BitVec.ofNat 32 Params.ctrBase)

/-- `aead_tag` (rule R171). -/
def aeadTag (rk : Vector Word 32) (Hk : Block) (N : Nonce) (A C : List Byte) : Block :=
  ghash Hk (blocksOf (hashInput A C)) ^^^ tagMask rk N

/-- `ct_equal` (rule R172): all sixteen byte differences folded into one accumulator, tested once (log 11). -/
def ctEqual (a b : Block) : Bool :=
  (List.range 16).foldl (fun d i => d ||| (Block.byte a i ^^^ Block.byte b i)) (0 : Byte) == 0

/-- `aead_encrypt` (rule R173): ciphertext and tag. -/
def aeadEncrypt (rk : Vector Word 32) (Hk : Block) (N : Nonce) (A P : List Byte) : List Byte × Block :=
  let C := ctrXor rk N P
  (C, aeadTag rk Hk N A C)

/-- `aead_decrypt` (rule R174): the tag is verified first; `none` is `AuthenticationFailure`. -/
def aeadDecrypt (rk : Vector Word 32) (Hk : Block) (N : Nonce) (A C : List Byte) (tag : Block) :
    Option (List Byte) :=
  if ctEqual (aeadTag rk Hk N A C) tag then some (ctrXor rk N C) else none

/-- AEADE (rule R175). -/
def execAeade (nonce aad pt : List Byte) (s : State) : Answer :=
  keyed s fun c => withNonce nonce s fun N => withinBounds pt aad s <|
    let out := aeadEncrypt c.rk c.h N aad pt
    complete [.var out.1, .blk out.2] s

/-- AEADD (rule R176). -/
def execAeadd (nonce aad ct : List Byte) (tag : Block) (s : State) : Answer :=
  keyed s fun c => withNonce nonce s fun N => withinBounds ct aad s <|
    match aeadDecrypt c.rk c.h N aad ct tag with
    | none => raise .authenticationFailure s
    | some pt => complete [.var pt] s

end Sys2Proof.Machine
end

