-- ==== Sys2Proof/Machine/KeySchedule.lean ====
section
/-!
DEFINITION. 41_key_schedule.md: the key schedule, the hash subkey and the command KSCHED.
-/
namespace Sys2Proof.Machine

/-- `Lk` (rule R110, 90_conflicts.md C1): rotations `KS_ROT = (13, 23)`. -/
def ksDiffuse (x : Word) : Word := x ^^^ x.rotateLeft 13 ^^^ x.rotateLeft 23

/-- `Tk` (rule R111). -/
def ksCompound (w : Word) : Word := ksDiffuse (tau w)

/-- `K[i mod 4]` of the key-schedule register (rule R31). -/
def ksGet (K : Words4) (i : Nat) : Word :=
  match i % 4 with
  | 0 => K.x0
  | 1 => K.x1
  | 2 => K.x2
  | _ => K.x3

/-- `K[i mod 4] <- v` (rule R31). -/
def ksSet (K : Words4) (i : Nat) (v : Word) : Words4 :=
  match i % 4 with
  | 0 => { K with x0 := v }
  | 1 => { K with x1 := v }
  | 2 => { K with x2 := v }
  | _ => { K with x3 := v }

/-- `rk[i]` from the register before round `i` (rule R112). -/
def ksRoundKey (K : Words4) (i : Nat) : Word :=
  ksGet K i ^^^
    ksCompound (ksGet K (i + 1) ^^^ ksGet K (i + 2) ^^^ ksGet K (i + 3) ^^^ Params.ck.getD i 0)

/-- The next `n` round keys, from round `i` on; each overwrites `K[i mod 4]` (rule R112). -/
def ksRounds : Nat → Nat → Words4 → List Word
  | 0, _, _ => []
  | n + 1, i, K => ksRoundKey K i :: ksRounds n (i + 1) (ksSet K i (ksRoundKey K i))

/-- The key words XORed with the system parameters (rules R55, R112). -/
def ksInit (key : Block) : Words4 :=
  ⟨(words key).x0 ^^^ Params.fk.x0, (words key).x1 ^^^ Params.fk.x1,
   (words key).x2 ^^^ Params.fk.x2, (words key).x3 ^^^ Params.fk.x3⟩

/-- One round key a round. -/
theorem ksRounds_length (n i : Nat) (K : Words4) : (ksRounds n i K).length = n := by
  induction n generalizing i K with
  | zero => rfl
  | succ n ih => simp [ksRounds, ih]

/-- `expand_key` (rule R112): exactly 32 rounds (90_conflicts.md C7). -/
def expandKey (key : Block) : Vector Word 32 :=
  ⟨⟨ksRounds Config.rounds 0 (ksInit key)⟩, ksRounds_length _ _ _⟩

/-- The key context of a key: its round keys and the hash subkey (rules R113, R114). -/
def contextOfKey (key : Block) : KeyContext :=
  { rk := expandKey key, h := encWith (expandKey key) 0 }

/-- KSCHED (rule R113). -/
def execKsched (key : List Byte) (s : State) : Answer :=
  withKey key s fun k => complete [] (s.install (contextOfKey k))

end Sys2Proof.Machine
end

