-- ==== Sys2Proof/Machine/Dispatch.lean ====
section
/-! DEFINITION. What each command does: one arm per row of opcode_table.json. -/
namespace Sys2Proof.Machine

def exec (i : Instr) (s : State) : Host.Outcome State Fault Refusal :=
  match i with
  | .sbox b => Sys2Proof.Machine.execSbox b s
  | .diff w => Sys2Proof.Machine.execDiff w s
  | .cxf w => Sys2Proof.Machine.execCxf w s
  | .ksched key => Sys2Proof.Machine.execKsched key s
  | .encb blk => Sys2Proof.Machine.execEncb blk s
  | .decb blk => Sys2Proof.Machine.execDecb blk s
  | .ksb nonce ctr => Sys2Proof.Machine.execKsb nonce ctr s
  | .ctrx nonce data => Sys2Proof.Machine.execCtrx nonce data s
  | .gfmul x y => Sys2Proof.Machine.execGfmul x y s
  | .ghash h msg => Sys2Proof.Machine.execGhash h msg s
  | .aeade nonce aad pt => Sys2Proof.Machine.execAeade nonce aad pt s
  | .aeadd nonce aad ct tag => Sys2Proof.Machine.execAeadd nonce aad ct tag s

end Sys2Proof.Machine
end

