-- ==== Sys2Proof/Machine/Step.lean ====
section
/-!
DEFINITION. One step of the machine: the host's next input is taken and answered (10_state.md rule R21, 70_reset_and_hazards.md
rule R236).
-/
namespace Sys2Proof.Machine

/-- A command frame is decoded and executed, or answered `IllegalCommand`, as one atomic step (rules R21, R65, R76). -/
def runFrame (F : Frame) (s : State) : Host.Outcome State Fault Refusal :=
  match decode F with
  | .ok i => exec i s
  | .error e => answerIllegal e s

/-- One step: nothing presented, a reset, or a command frame. Reading an input takes it off the list. -/
def step (s : State) : Host.Outcome State Fault Refusal :=
  match s.inputs with
  | [] => idle s
  | .reset :: rest => resetCore { s with inputs := rest }
  | .command F :: rest => runFrame F { s with inputs := rest }

/-- The host presents a table row's instruction next (log 1, log 12). -/
def State.withFetchWord (s : State) (nbits w : Nat) : State :=
  { s with inputs := .command (frameOfTableWord nbits w) :: s.inputs }

end Sys2Proof.Machine
end

