-- ==== Sys2Proof/Machine/Pseudo.lean ====
section
/-!
DEFINITION. The document's function forms as command sequences (30_encoding.md rule R81). The machine executes commands only;
nothing of `step` depends on this file.
-/
namespace Sys2Proof

/-- The expansion of a function form: the keyed forms first install the key (rule R81). -/
def DocForm.expand : DocForm → List Instr
  | .substitute b => [.sbox b]
  | .diffuse w => [.diff w]
  | .compound w => [.cxf w]
  | .scheduleKey key => [.ksched key]
  | .encrypt key blk => [.ksched key, .encb blk]
  | .decrypt key blk => [.ksched key, .decb blk]
  | .keystreamBlock key nonce ctr => [.ksched key, .ksb nonce ctr]
  | .hashSubkey key => [.ksched key, .encb 0]
  | .tagMask key nonce => [.ksched key, .ksb nonce 0]
  | .ghash h msg => [.ghash h msg]
  | .aeadEncrypt key nonce aad pt => [.ksched key, .aeade nonce aad pt]
  | .aeadDecrypt key nonce aad ct tag => [.ksched key, .aeadd nonce aad ct tag]

end Sys2Proof
end

