-- ==== Sys2Proof/Safety.lean ====
section
/-!
DEFINITION. What the spec promises of every run, in the terms the statements use: which statuses a command may answer, what
an answer looks like, and that an installed key context belongs to one key.
-/
namespace Sys2Proof

/-- Which statuses besides `OK` a command raises (60_exceptions.md rule R190, column "raised by"). -/
def Op.mayRaise : Op → List Status
  | .sbox => []
  | .diff => []
  | .cxf => []
  | .ksched => [.invalidKeyLength]
  | .encb => [.notScheduled]
  | .decb => [.notScheduled]
  | .ksb => [.notScheduled, .invalidNonceLength]
  | .ctrx => [.notScheduled, .invalidNonceLength, .messageTooLong]
  | .gfmul => []
  | .ghash => []
  | .aeade => [.notScheduled, .invalidNonceLength, .messageTooLong]
  | .aeadd => [.notScheduled, .invalidNonceLength, .messageTooLong, .authenticationFailure]

/-- The kinds of the result fields (30_encoding.md rule R74). -/
def Op.resultFormat : Op → List FieldKind
  | .sbox => [.u8]
  | .diff => [.w32]
  | .cxf => [.w32]
  | .ksched => []
  | .encb => [.blk]
  | .decb => [.blk]
  | .ksb => [.blk]
  | .ctrx => [.var]
  | .gfmul => [.blk]
  | .ghash => [.blk]
  | .aeade => [.var, .blk]
  | .aeadd => [.var]

/-- The length in bytes of a response with status `OK` (rule R74). -/
def Instr.okLength : Instr → Nat
  | .sbox _ => 2
  | .diff _ => 5
  | .cxf _ => 5
  | .ksched _ => 1
  | .encb _ => 17
  | .decb _ => 17
  | .ksb _ _ => 17
  | .ctrx _ data => 9 + data.length
  | .gfmul _ _ => 17
  | .ghash _ _ => 17
  | .aeade _ _ pt => 25 + pt.length
  | .aeadd _ _ ct _ => 9 + ct.length

/-- The keyed commands (00_scope.md rule R19). -/
def Op.keyed : Op → Bool
  | .sbox => false
  | .diff => false
  | .cxf => false
  | .ksched => false
  | .encb => true
  | .decb => true
  | .ksb => true
  | .ctrx => true
  | .gfmul => false
  | .ghash => false
  | .aeade => true
  | .aeadd => true

/-- The nonce operand of the commands that take one (rule R192). -/
def Instr.nonce? : Instr → Option (List Byte)
  | .ksb nonce _ => some nonce
  | .ctrx nonce _ => some nonce
  | .aeade nonce _ _ => some nonce
  | .aeadd nonce _ _ _ => some nonce
  | .sbox _ | .diff _ | .cxf _ | .ksched _ | .encb _ | .decb _ | .gfmul _ _ | .ghash _ _ => none

/-- The operand that the data bound limits: data, plaintext or ciphertext (rule R194). -/
def Instr.data? : Instr → Option (List Byte)
  | .ctrx _ data => some data
  | .aeade _ _ pt => some pt
  | .aeadd _ _ ct _ => some ct
  | .sbox _ | .diff _ | .cxf _ | .ksched _ | .encb _ | .decb _ | .ksb _ _ | .gfmul _ _ | .ghash _ _ => none

/-- The AAD operand (rule R194). -/
def Instr.aad? : Instr → Option (List Byte)
  | .aeade _ aad _ => some aad
  | .aeadd _ aad _ _ => some aad
  | .sbox _ | .diff _ | .cxf _ | .ksched _ | .encb _ | .decb _ | .ksb _ _ | .ctrx _ _ | .gfmul _ _
  | .ghash _ _ => none

namespace Machine

/-- A legal response frame (rules R71, R190): a status byte, and nothing after it unless the status is `OK`. -/
def legalResponse (F : Frame) : Bool :=
  match F with
  | [] => false
  | b :: rest => b == 0 || (decide (b.toNat ≤ 6) && rest.isEmpty)

/-- The registers of a key context belong together (10_state.md rule R29): the round keys of one key and the hash subkey of
the same key (rules R112, R114). -/
def KeyContext.ofOneKey (c : KeyContext) : Prop :=
  ∃ key : Block, c.rk = expandKey key ∧ c.h = encWith c.rk 0

/-- The invariant of the machine: what is installed belongs to one key, and every answer so far was legal. -/
def State.Inv (s : State) : Prop :=
  (∀ c, s.keyCtx = some c → c.ofOneKey) ∧ ∀ F ∈ s.responses, legalResponse F = true

/-- The states of runs (70_reset_and_hazards.md rule R236): reset with whatever the host then presents, and every state a
step leads to. -/
inductive Reachable : State → Prop
  | reset (inputs : List HostInput) : Reachable { State.reset with inputs := inputs }
  | step {s t : State} : Reachable s → step s = .next t → Reachable t

end Machine

end Sys2Proof
end

