-- ==== Sys2Proof/Certificates/Slice0/Obligations.lean ====
section
/-!
DEFINITION. The statements about the model for the provers. Each docstring names the rule of spec/ it formalises. A next state is
written as a record update of the state before, so every statement of a result is also the frame of the command: the fields
it does not name are unchanged.
-/

open Sys2Proof Sys2Proof.Machine

/-! ### Encoding -/

/-- Three of the worked frames of section 6 of 30_encoding.md (rule R82), written out byte by byte, those of DIFF, CTRX and GHASH,
decode to their commands; and so does the frame of a KSCHED with a two-byte key, worked out from the formats of sections 2 and 4
(rules R73, R76), since a wrong key length is no illegal encoding (rule R77). -/
def Obligations.WorkedFramesDecodeToTheirCommands : Prop :=
  decode [0x02, 0x00, 0x00, 0x00, 0x01] = .ok (.diff 0x00000001) ∧
  decode ([0x31] ++ [0x00, 0x00, 0x00, 0x00, 0x00, 0x00, 0x00, 0x0c] ++
      [0x00, 0x00, 0x12, 0x34, 0x56, 0x78, 0x00, 0x00, 0x00, 0x00, 0xab, 0xcd] ++
      [0x00, 0x00, 0x00, 0x00, 0x00, 0x00, 0x00, 0x03] ++ [0x00, 0x01, 0x02]) =
    .ok (.ctrx [0x00, 0x00, 0x12, 0x34, 0x56, 0x78, 0x00, 0x00, 0x00, 0x00, 0xab, 0xcd] [0x00, 0x01, 0x02]) ∧
  decode ([0x41] ++ [0x26, 0x77, 0xf4, 0x6b, 0x09, 0xc1, 0x22, 0xcc, 0x97, 0x55, 0x33, 0x10, 0x5b, 0xd4, 0xa2, 0x2a] ++
      [0x00, 0x00, 0x00, 0x00, 0x00, 0x00, 0x00, 0x01] ++
      [0x80, 0x00, 0x00, 0x00, 0x00, 0x00, 0x00, 0x00, 0x00, 0x00, 0x00, 0x00, 0x00, 0x00, 0x00, 0x00]) =
    .ok (.ghash 0x2677f46b09c122cc975533105bd4a22a [0x80000000000000000000000000000000]) ∧
  decode ([0x10] ++ [0x00, 0x00, 0x00, 0x00, 0x00, 0x00, 0x00, 0x02] ++ [0xab, 0xcd]) = .ok (.ksched [0xab, 0xcd])

/-- Sections 1, 2 and 4 of 30_encoding.md: no bit of an encoding is dropped. Decoding the frame of any command that a frame
can carry gives the command back, every operand at every value. -/
def Obligations.DecodeInvertsEncode : Prop :=
  ∀ i : Instr, i.wellFormed = true → decode (encode i) = .ok i

/-- Sections 1, 2 and 4 of 30_encoding.md: a frame has at most one meaning and each meaning one frame. What the decoder
accepts is exactly the frame of the command it reads, and that command's fields fit their encodings. -/
def Obligations.EncodeInvertsDecode : Prop :=
  ∀ (F : Frame) (i : Instr), decode F = .ok i → i.wellFormed = true ∧ encode i = F

/-- Section 4 of 30_encoding.md, rule R78: all 244 opcode values other than the twelve are reserved, and whatever follows
one in a frame, in whatever state, the answer is `IllegalCommand` and no state changes. -/
def Obligations.ReservedOpcodesAreIllegal : Prop :=
  let assigned : List Byte := [0x01, 0x02, 0x03, 0x10, 0x20, 0x21, 0x30, 0x31, 0x40, 0x41, 0x50, 0x51]
  ((List.range 256).filter fun n => BitVec.ofNat 8 n ∉ assigned).length = 244 ∧
  (0x00 : Byte) ∉ assigned ∧ (0xff : Byte) ∉ assigned ∧
  ∀ (b : Byte) (bs : List Byte) (s : State) (rest : List HostInput), b ∉ assigned →
    step { s with inputs := .command (b :: bs) :: rest } =
      .next { s with inputs := rest, responses := s.responses ++ [[0x06]] }

/-- Rule R77, clause by clause: an empty frame; an opcode byte that is none of the twelve; a frame that ends before its
fields do; a length prefix or a block count that announces more than remains; bytes after the last field. Each is answered
`IllegalCommand` and changes no state. A wrong key or nonce length is not illegal: the frame decodes and the command raises
`InvalidKeyLength` or, when a key context is installed, `InvalidNonceLength`. -/
def Obligations.IllegalFramesAreAnsweredIllegalCommand : Prop :=
  let answered : Frame → Byte → State → Prop := fun F code s =>
    ∀ rest : List HostInput, step { s with inputs := .command F :: rest } =
      .next { s with inputs := rest, responses := s.responses ++ [[code]] }
  (∀ s, answered [] 0x06 s) ∧
  (∀ b bs s, b ∉ ([0x01, 0x02, 0x03, 0x10, 0x20, 0x21, 0x30, 0x31, 0x40, 0x41, 0x50, 0x51] : List Byte) →
    answered (b :: bs) 0x06 s) ∧
  (∀ (i : Instr) (k : Nat) s, i.wellFormed = true → k < (encode i).length →
    answered ((encode i).take k) 0x06 s) ∧
  (∀ (i : Instr) (before after : List Field) (bs : List Byte) (n : Nat) (tail : List Byte) s,
    i.wellFormed = true → i.fields = before ++ .var bs :: after → n < 2 ^ 64 → tail.length < n →
    answered (i.op.code :: before.flatMap Field.encode ++ be64 n ++ tail) 0x06 s) ∧
  (∀ (i : Instr) (before after : List Field) (Bs : List Block) (m : Nat) (tail : List Byte) s,
    i.wellFormed = true → i.fields = before ++ .blks Bs :: after → m < 2 ^ 64 → tail.length < 16 * m →
    answered (i.op.code :: before.flatMap Field.encode ++ be64 m ++ tail) 0x06 s) ∧
  (∀ (i : Instr) (b : Byte) (bs : List Byte) s, i.wellFormed = true →
    answered (encode i ++ b :: bs) 0x06 s) ∧
  (∀ (key : List Byte) s, key.length < 2 ^ 64 → key.length ≠ 16 →
    answered (encode (.ksched key)) 0x01 s) ∧
  (∀ (i : Instr) (N : List Byte) s, i.wellFormed = true → i.nonce? = some N → N.length ≠ 12 →
    s.keyCtx ≠ none → answered (encode i) 0x02 s)

/-! ### Steps, reset, observation -/

/-- Rule R21, R65: a step takes the frame at the command port and, when it decodes, executes its command on the state with
that input taken, as one step and with nothing around it. -/
def Obligations.StepRunsTheDecodedCommand : Prop :=
  ∀ (s : State) (F : Frame) (rest : List HostInput) (i : Instr), decode F = .ok i →
    step { s with inputs := .command F :: rest } = exec i { s with inputs := rest }

/-- Section 1 of 70_reset_and_hazards.md: with nothing presented the CORE executes nothing. That this is a step which leaves
the state as it is, is the model's own form (log 4). -/
def Obligations.NothingPresentedNothingExecuted : Prop :=
  ∀ s : State, s.inputs = [] → step s = .next s

/-- Rule R41: after reset `SCHED = 0`, and every keyed command before the first successful KSCHED is answered `NotScheduled`: at
any point of a run from reset at which no frame taken so far was that of a KSCHED with a 16-byte key, whatever frames
follow, `SCHED` is still 0, and if a keyed command is next the step appends the one-byte response 0x05. -/
def Obligations.KeyedCommandsBeforeKschedAreNotScheduled : Prop :=
  State.reset.sched = false ∧
  ∀ (frames : List Frame) (n : Nat) (t : State),
    (∀ G ∈ frames.take n, ∀ key : List Byte, decode G = .ok (.ksched key) → key.length ≠ 16) →
    Sys2Proof.core.run n { State.reset with inputs := frames.map .command } = .next t →
    t.sched = false ∧ ∀ (F : Frame) (rest : List HostInput) (i : Instr),
      t.inputs = .command F :: rest → decode F = .ok i → i.op.keyed = true →
      step t = .next { t with inputs := rest, responses := t.responses ++ [[0x05]] }

/-- Section 1 of 70_reset_and_hazards.md, rule R220: reset puts the CORE in the state "no key context", with no response
pending, and reset is the only way `SCHED` becomes 0. (That the host's later inputs stay is the model's choice, log 5.) -/
def Obligations.ResetAloneClearsTheKeyContext : Prop :=
  (∀ (s : State) (rest : List HostInput),
    step { s with inputs := .reset :: rest } = .next { keyCtx := none, inputs := rest, responses := [] }) ∧
  ∀ s t : State, step s = .next t → s.sched = true → t.sched = false →
    ∃ rest, s.inputs = .reset :: rest

/-- Rule R71: every command frame, legal or not, in every state, is answered with exactly one response frame, whose first
byte is a status code: alone when the status is not `OK`, and followed by the result fields of the opcode's response format
when it is. So no frame stops the machine. -/
def Obligations.EveryFrameGetsOneResponse : Prop :=
  ∀ (s : State) (F : Frame) (rest : List HostInput), ∃ (ctx : Option KeyContext) (R : Frame),
    step { s with inputs := .command F :: rest } =
      .next { keyCtx := ctx, inputs := rest, responses := s.responses ++ [R] } ∧
    ((∃ st : Status, st ≠ .ok ∧ R = [st.code]) ∨
      ∃ (i : Instr) (fields : List Field), decode F = .ok i ∧ fields.map Field.kind = i.op.resultFormat ∧
        R = 0x00 :: fields.flatMap Field.encode)

/-- Rule R74: a command's response is either an error status that rule R190 lets the command raise, alone, or `OK` followed
by the fields of the command's response format, and then of the length the rule gives. -/
def Obligations.ResponsesHaveTheirFormat : Prop :=
  ∀ (i : Instr) (s : State), ∃ (ctx : Option KeyContext) (R : Frame),
    exec i s = .next { s with keyCtx := ctx, responses := s.responses ++ [R] } ∧
    ((∃ st ∈ i.op.mayRaise, R = [st.code]) ∨
      (R.length = i.okLength ∧ ∃ fields : List Field, fields.map Field.kind = i.op.resultFormat ∧
        R = 0x00 :: fields.flatMap Field.encode))

/-- Rule R29: no command other than KSCHED writes any part of the key context, and a successful KSCHED writes all of it,
round keys and hash subkey of one key, in one step. No command touches what the host still presents or an earlier response
(the frame of all commands at once). -/
def Obligations.OnlyKschedWritesTheKeyContext : Prop :=
  ∀ (i : Instr) (s t : State), exec i s = .next t →
    (i.op ≠ .ksched → t.keyCtx = s.keyCtx) ∧
    (∀ key, i = .ksched key → (key.length ≠ 16 ∧ t.keyCtx = s.keyCtx) ∨
      (key.length = 16 ∧ ∃ c, t.keyCtx = some c ∧ c.ofOneKey)) ∧
    t.inputs = s.inputs ∧ ∃ R : Frame, t.responses = s.responses ++ [R]

/-- Rule R199: a command that raises an error, a frame that does not decode included, changes no architectural state; its
answer is the status byte. -/
def Obligations.ErrorsLeaveNoTrace : Prop :=
  ∀ (s t : State) (F : Frame) (rest : List HostInput) (st : Status) (tail : List Byte),
    step { s with inputs := .command F :: rest } = .next t → t.responses = s.responses ++ [st.code :: tail] → st ≠ .ok →
    t = { s with inputs := rest, responses := s.responses ++ [[st.code]] }

/-- Section 4 of 20_memory.md, rule R65: every command but KSCHED leaves the key context and repeats its response when
repeated; KSCHED repeated with the same key answers the same and writes the same context. -/
def Obligations.CommandsAreIdempotent : Prop :=
  ∀ (i : Instr) (s t : State), exec i s = .next t → ∃ R : Frame,
    t.responses = s.responses ++ [R] ∧ exec i t = .next { t with responses := t.responses ++ [R] }

/-- Section 4 of 70_reset_and_hazards.md, rule R236 (and R66): two states with the same key context are indistinguishable.
For every sequence of command frames and every number of steps, the runs from both answer the same response frames and end
with the same key context. -/
def Obligations.EqualContextsAreIndistinguishable : Prop :=
  ∀ (frames : List Frame) (n : Nat) (s t : State), s.keyCtx = t.keyCtx →
    ∃ (ctx : Option KeyContext) (rest : List HostInput) (out : List Frame),
      Sys2Proof.core.run n { s with inputs := frames.map .command } =
        .next { keyCtx := ctx, inputs := rest, responses := s.responses ++ out } ∧
      Sys2Proof.core.run n { t with inputs := frames.map .command } =
        .next { keyCtx := ctx, inputs := rest, responses := t.responses ++ out }

/-- Sections 2 of 10_state.md and 1 of 60_exceptions.md (rules R29, R71, R190): from every state in which an installed
context is the round keys and the hash subkey of one key and every answer so far is legal, a step leads to such a state. -/
def Obligations.StepKeepsContextAndResponsesLegal : Prop :=
  ∀ s t : State, s.Inv → step s = .next t → t.Inv

/-- The invariant of `StepKeepsContextAndResponsesLegal` holds after reset. -/
def Obligations.ResetMeetsTheInvariant : Prop := State.reset.Inv

/-- Section 6 of 10_state.md, rule R40: in every state that meets the invariant and has a key installed, `ENCB 0^16` answers
`H`, and `KSB` of the all-zero nonce and counter 0 answers `H` too. -/
def Obligations.HashSubkeyIsEncryptionOfZero : Prop :=
  ∀ (s : State) (c : KeyContext), s.Inv → s.keyCtx = some c →
    exec (.encb 0) s = .next { s with responses := s.responses ++ [0x00 :: bytesOfBlock c.h] } ∧
    exec (.ksb (List.replicate 12 0) 0) s =
      .next { s with responses := s.responses ++ [0x00 :: bytesOfBlock c.h] }

/-! ### Statuses -/

/-- Rule R197: of several causes the first in the rule's order is reported, and `OK` only when there is none. The causes are
those of rules R191 to R196. -/
def Obligations.FirstCauseIsReported : Prop :=
  ∀ (s : State) (F : Frame) (rest : List HostInput), ∃ (ctx : Option KeyContext) (code : Byte) (tail : List Byte),
    step { s with inputs := .command F :: rest } =
      .next { keyCtx := ctx, inputs := rest, responses := s.responses ++ [code :: tail] } ∧
    (∀ e, decode F = .error e → code = 0x06) ∧
    ∀ i, decode F = .ok i →
      let unscheduled : Prop := i.op.keyed = true ∧ s.keyCtx = none
      let badLength : Byte → Prop := fun e =>
        (e = 0x01 ∧ ∃ key, i = .ksched key ∧ key.length ≠ 16) ∨ (e = 0x02 ∧ ∃ N, i.nonce? = some N ∧ N.length ≠ 12)
      let tooLong : Prop :=
        (∃ D, i.data? = some D ∧ 2 ^ 36 - 32 < D.length) ∨ (∃ A, i.aad? = some A ∧ 2 ^ 61 - 1 < A.length)
      let badTag : Prop := ∃ N A C tag c, i = .aeadd N A C tag ∧ s.keyCtx = some c ∧
        tag ≠ aeadTag c.rk c.h (nonceOfBytes N) A C
      (unscheduled → code = 0x05) ∧
      (¬ unscheduled → (∀ e, badLength e → code = e) ∧
        ((∀ e, ¬ badLength e) → (tooLong → code = 0x04) ∧
          (¬ tooLong → (badTag → code = 0x03) ∧ (¬ badTag → code = 0x00))))

/-- Rule R191: `InvalidKeyLength` is raised by KSCHED when the key operand does not have sixteen bytes, by no other command,
and the key context is unchanged. -/
def Obligations.InvalidKeyLengthExactlyWhen : Prop :=
  (∀ (key : List Byte) (s : State), key.length ≠ 16 →
    exec (.ksched key) s = .next { s with responses := s.responses ++ [[0x01]] }) ∧
  ∀ (i : Instr) (s t : State) (tail : List Byte), exec i s = .next t →
    t.responses = s.responses ++ [0x01 :: tail] → ∃ key, i = .ksched key ∧ key.length ≠ 16

/-- Rule R192: `InvalidNonceLength` is raised by KSB, CTRX, AEADE and AEADD, a context being installed, when the nonce
operand does not have twelve bytes, and by no other command and for no other reason. -/
def Obligations.InvalidNonceLengthExactlyWhen : Prop :=
  (∀ (i : Instr) (N : List Byte) (s : State), s.keyCtx ≠ none → i.nonce? = some N → N.length ≠ 12 →
    exec i s = .next { s with responses := s.responses ++ [[0x02]] }) ∧
  (∀ i : Instr, i.nonce?.isSome = true ↔ i.op ∈ [Op.ksb, .ctrx, .aeade, .aeadd]) ∧
  ∀ (i : Instr) (s t : State) (tail : List Byte), exec i s = .next t →
    t.responses = s.responses ++ [0x02 :: tail] → ∃ N, i.nonce? = some N ∧ N.length ≠ 12

/-- Rule R194: `MessageTooLong` is raised, a context being installed and the nonce having twelve bytes, exactly when the
plaintext of AEADE, the ciphertext of AEADD or the data of CTRX is longer than 68 719 476 704 bytes or the AAD longer than
2^61 - 1; at the bound it is not. GHASH, GFMUL, KSB and the rest check no bound. -/
def Obligations.MessageTooLongExactlyWhen : Prop :=
  ∀ (i : Instr) (s : State),
    exec i s = .next { s with responses := s.responses ++ [[0x04]] } ↔
      s.keyCtx ≠ none ∧ (∃ N, i.nonce? = some N ∧ N.length = 12) ∧
      ((∃ N D, i = .ctrx N D ∧ 68719476704 < D.length) ∨
        (∃ N A P, i = .aeade N A P ∧ (68719476704 < P.length ∨ 2305843009213693951 < A.length)) ∨
        ∃ N A C tag, i = .aeadd N A C tag ∧ (68719476704 < C.length ∨ 2305843009213693951 < A.length))

/-- Rule R195: every keyed command raises `NotScheduled` when `SCHED = 0`, whatever its operands, and no command raises it
otherwise. -/
def Obligations.NotScheduledExactlyWhen : Prop :=
  ∀ (i : Instr) (s : State),
    exec i s = .next { s with responses := s.responses ++ [[0x05]] } ↔
      i.op ∈ [Op.encb, .decb, .ksb, .ctrx, .aeade, .aeadd] ∧ s.sched = false

/-! ### S-box, diffusion, compound transform -/

/-- Rule R90, against the table of rule R25 written out once more: SBOX answers `SBOX[b]`, entry `b` of the table in index
order, in every state; and the table is a bijection. -/
def Obligations.SboxAnswersTheTableEntry : Prop :=
  let table : List Block :=
    [0xd690e9fecce13db716b614c228fb2c05, 0x2b679a762abe04c3aa44132649860699, 0x9c4250f491ef987a33540b43edcfac62,
     0xe4b31ca9c908e89580df94fa758f3fa6, 0x4707a7fcf37317ba83593c19e6854fa8, 0x686b81b27164da8bf8eb0f4b70569d35,
     0x1e240e5e6358d1a225227c3b01217887, 0xd40046579fd327524c3602e7a0c4c89e, 0xeabf8ad240c738b5a3f7f2cef96115a1,
     0xe0ae5da49b341a55ad933230f58cb1e3, 0x1df6e22e8266ca60c02923ab0d534e6f, 0xd5db3745defd8e2f03ff6a726d6c5b51,
     0x8d1baf92bbddbc7f11d95c411f105ad8, 0x0ac13188a5cd7bbd2d74d012b8e5b4b0, 0x8969974a0c96777e65b9f109c56ec684,
     0x18f07dec3adc4d2079ee5f3ed7cb3948]
  (∀ (b : Byte) (s : State), ∃ v : Byte, (table.flatMap bytesOfBlock)[b.toNat]? = some v ∧
    exec (.sbox b) s = .next { s with responses := s.responses ++ [[0x00, v]] }) ∧
  ∀ v : Byte, ∃! b : Byte, (table.flatMap bytesOfBlock)[b.toNat]? = some v

/-- Rule R91: DIFF answers the word whose bit `i` is the exclusive or of the bits `i`, `i - 2`, `i - 10`, `i - 18`, `i - 24`
of the operand, modulo 32 (rotations are circular), in every state. -/
def Obligations.DiffRotatesAndXors : Prop :=
  ∀ (w : Word) (s : State), ∃ r : Word,
    exec (.diff w) s = .next { s with responses := s.responses ++ [0x00 :: bytes32 r] } ∧
    ∀ i : Nat, i < 32 → r.getLsbD i =
      ((((w.getLsbD i ^^ w.getLsbD ((i + 30) % 32)) ^^ w.getLsbD ((i + 22) % 32)) ^^ w.getLsbD ((i + 14) % 32)) ^^
        w.getLsbD ((i + 8) % 32))

/-- Section 3 of 40_sbox_diffusion.md, rule R97 (a) to (d), laws the spec derives: `S` is a bijection of bytes; `L` is
linear, commutes with rotation, and is a bijection of words, and so is `T`. -/
def Obligations.LeafLaws : Prop :=
  (∀ v : Byte, ∃! b : Byte, substitute b = v) ∧
  (∀ a b : Word, diffuse (a ^^^ b) = diffuse a ^^^ diffuse b) ∧ diffuse 0 = 0 ∧
  (∀ (x : Word) (k : Nat), diffuse (x.rotateLeft k) = (diffuse x).rotateLeft k) ∧
  Function.Bijective diffuse ∧ Function.Bijective compound

/-- Section 3 of 40_sbox_diffusion.md, rule R98, a law the spec derives: with the four fused tables CXF answers the
exclusive or of four look-ups, in every state; the tables are rotations of the first; and the rule's sample entries. -/
def Obligations.CxfEqualsFusedTables : Prop :=
  let T : Nat → Byte → Word := fun k b => diffuse ((substitute b).setWidth 32 <<< (24 - 8 * k))
  (∀ (a0 a1 a2 a3 : Byte) (s : State), exec (.cxf (be32 [a0, a1, a2, a3])) s =
    .next { s with responses := s.responses ++ [0x00 :: bytes32 (T 0 a0 ^^^ T 1 a1 ^^^ T 2 a2 ^^^ T 3 a3)] }) ∧
  (∀ b : Byte, T 1 b = (T 0 b).rotateLeft 24 ∧ T 2 b = (T 0 b).rotateLeft 16 ∧ T 3 b = (T 0 b).rotateLeft 8) ∧
  T 0 0x00 = 0x8ed55b5b ∧ T 3 0x00 = 0xd55b5b8e

/-! ### Key schedule and cipher -/

/-- Rules R112, R114: KSCHED with a 16-byte key writes `RK`, `H` and `SCHED` at once and answers `OK`. The round keys are
those of rule R112's loop: `K i` is the four-word register before round `i`, at first the key words XORed with `FK`; round
`i` gives `rk[i]` and overwrites `K[i mod 4]` with it, byte `j` of `CK[i]` being `(4i + j) * 7 mod 256`. `H` is the all-zero
Block enciphered under them. The context before plays no part. -/
def Obligations.KschedInstallsTheScheduleOfTheKey : Prop :=
  let FK : List Word := [0xA3B1BAC6, 0x56AA3350, 0x677D9197, 0xB27022DC]
  let Lk : Word → Word := fun x => x ^^^ x.rotateLeft 13 ^^^ x.rotateLeft 23
  let CK : Nat → Word := fun i => be32 ((List.range 4).map fun j => BitVec.ofNat 8 ((4 * i + j) * 7))
  ∀ (key : List Byte) (s : State), key.length = 16 → ∃ (K : Nat → Nat → Word) (c : KeyContext),
    (∀ j < 4, K 0 j = be32 ((key.drop (4 * j)).take 4) ^^^ FK.getD j 0) ∧
    (∀ i : Fin 32,
      c.rk[i] = K i (i % 4) ^^^
        Lk (tau (K i ((i + 1) % 4) ^^^ K i ((i + 2) % 4) ^^^ K i ((i + 3) % 4) ^^^ CK i)) ∧
      ∀ j < 4, K (i + 1) j = if j = i % 4 then c.rk[i] else K i j) ∧
    c.h = encWith c.rk 0 ∧
    exec (.ksched key) s = .next { s with keyCtx := some c, responses := s.responses ++ [[0x00]] }

/-- Rules R120 to R122: with a context installed ENCB loads the Block's four words, makes 32 rounds, in each of which the
window of four words shifts by one and round `i` brings in `x0 xor T(x1 xor x2 xor x3 xor RK[i])`, and answers the last
window's words in reverse order. -/
def Obligations.EncbRunsThirtyTwoRounds : Prop :=
  let F : Word → Word → Word → Word → Word → Word := fun x0 x1 x2 x3 k => x0 ^^^ compound (x1 ^^^ x2 ^^^ x3 ^^^ k)
  ∀ (B : List Byte) (s : State) (c : KeyContext), B.length = 16 → s.keyCtx = some c → ∃ X : Nat → Words4,
    X 0 = ⟨be32 (B.take 4), be32 ((B.drop 4).take 4), be32 ((B.drop 8).take 4), be32 ((B.drop 12).take 4)⟩ ∧
    (∀ i : Fin 32, X (i + 1) =
      ⟨(X i).x1, (X i).x2, (X i).x3, F (X i).x0 (X i).x1 (X i).x2 (X i).x3 c.rk[i]⟩) ∧
    exec (.encb (blockOfBytes B)) s = .next { s with responses := s.responses ++
      [0x00 :: (bytes32 (X 32).x3 ++ bytes32 (X 32).x2 ++ bytes32 (X 32).x1 ++ bytes32 (X 32).x0)] }

/-- Rule R123: DECB is the same with the round keys last to first, round `i` using `RK[31 - i]`. -/
def Obligations.DecbRunsTheRoundsWithReversedKeys : Prop :=
  let F : Word → Word → Word → Word → Word → Word := fun x0 x1 x2 x3 k => x0 ^^^ compound (x1 ^^^ x2 ^^^ x3 ^^^ k)
  ∀ (B : List Byte) (s : State) (c : KeyContext), B.length = 16 → s.keyCtx = some c → ∃ X : Nat → Words4,
    X 0 = ⟨be32 (B.take 4), be32 ((B.drop 4).take 4), be32 ((B.drop 8).take 4), be32 ((B.drop 12).take 4)⟩ ∧
    (∀ i : Fin 32, X (i + 1) =
      ⟨(X i).x1, (X i).x2, (X i).x3, F (X i).x0 (X i).x1 (X i).x2 (X i).x3 c.rk[i.rev]⟩) ∧
    exec (.decb (blockOfBytes B)) s = .next { s with responses := s.responses ++
      [0x00 :: (bytes32 (X 32).x3 ++ bytes32 (X 32).x2 ++ bytes32 (X 32).x1 ++ bytes32 (X 32).x0)] }

/-- Rule R126: decryption undoes encryption and encryption decryption, for every 32 words as round keys and every Block. -/
def Obligations.CipherRoundTrip : Prop :=
  ∀ (rk : Vector Word 32) (B : Block), decWith rk (encWith rk B) = B ∧ encWith rk (decWith rk B) = B

/-! ### Counter mode -/

/-- Rules R135, R136: with a context installed and a nonce of twelve bytes KSB answers the Block of the nonce's bytes and
the counter's four big-endian bytes, enciphered, for every counter value. -/
def Obligations.KsbEnciphersTheCounterBlock : Prop :=
  ∀ (N : List Byte) (ctr : Word) (s : State) (c : KeyContext), N.length = 12 → s.keyCtx = some c →
    exec (.ksb N ctr) s = .next { s with responses := s.responses ++
      [0x00 :: bytesOfBlock (encWith c.rk (blockOfBytes (N ++ bytes32 ctr)))] }

/-- Rules R62, R137: with a context installed, a nonce of twelve bytes and data within the bound, CTRX answers as many bytes
as it got, byte `i` being the data's byte XORed with byte `i mod 16` of the keystream block of counter `1 + i div 16`. -/
def Obligations.CtrxXorsTheKeystream : Prop :=
  ∀ (N D : List Byte) (s : State) (c : KeyContext), N.length = 12 → D.length ≤ 68719476704 → s.keyCtx = some c →
    ∃ out : List Byte, out.length = D.length ∧
      (∀ i d, D[i]? = some d → out[i]? = some (d ^^^
        Block.byte (encWith c.rk (blockOfBytes (N ++ bytes32 (BitVec.ofNat 32 (1 + i / 16))))) (i % 16))) ∧
      exec (.ctrx N D) s = .next { s with responses := s.responses ++ [0x00 :: (be64 D.length ++ out)] }

/-- Section 3 of 43_ctr_keystream.md, rule R140, laws the spec derives: (a) the length is kept, (b) the transformation is an
involution, (c) output block `j` depends only on the round keys, the nonce, `j` and the same input bytes, (d) of zero bytes
it gives the keystream. For byte strings above the bound of 68719476704 bytes, where the spec gives no counter (rule R142,
decision D20) and which no command passes on, the laws are those of the model's own function, whose counter wraps (the
model's choice, log 7). -/
def Obligations.CounterModeLaws : Prop :=
  ∀ (rk : Vector Word 32) (N : Nonce),
    (∀ D, (ctrXor rk N D).length = D.length) ∧
    (∀ D, ctrXor rk N (ctrXor rk N D) = D) ∧
    (∀ (D E : List Byte) (j : Nat), (D.drop (16 * j)).take 16 = (E.drop (16 * j)).take 16 →
      ((ctrXor rk N D).drop (16 * j)).take 16 = ((ctrXor rk N E).drop (16 * j)).take 16) ∧
    ∀ n : Nat, ctrXor rk N (zeros n) =
      ((List.range (ceil16 n)).flatMap fun j => bytesOfBlock (ksBlock rk N (BitVec.ofNat 32 (1 + j)))).take n

/-- Section 3 of 43_ctr_keystream.md, rule R142, which the spec derives: within the length bound the data counters are below
2^32 - 1: they do not wrap, never reach 0xffffffff, never are the counter of the tag mask, and no two blocks share one. -/
def Obligations.DataCountersNeverWrap : Prop :=
  ∀ n j k : Nat, n ≤ 68719476704 → j < ceil16 n → k < ceil16 n →
    dataCounter j ≤ 0xfffffffe ∧
    (BitVec.ofNat 32 (dataCounter j)).toNat = dataCounter j ∧
    BitVec.ofNat 32 (dataCounter j) ≠ BitVec.ofNat 32 Params.ctrBase ∧
    (BitVec.ofNat 32 (dataCounter j) = BitVec.ofNat 32 (dataCounter k) → j = k)

/-! ### Field multiplication and hash -/

/-- Rule R150: GFMUL answers, in every state, the product `Z 128` of the rule's loop. `Z` starts at zero and the shifting
copy `V` at the second operand; for each bit of the first operand, byte 0 first and the most significant bit of a byte
first, `V` is XORed into `Z` when the bit is set, and `V` is shifted right, 0xe1 being XORed into its top byte when a bit is
carried out. This is the product of the operands read as polynomials over GF(2) modulo `x^128 + x^7 + x^2 + x + 1`, that bit
`k` being the coefficient of `x^k`. -/
def Obligations.GfmulMultipliesPolynomials : Prop :=
  let bit : Block → Nat → Bool := fun E k => (Block.byte E (k / 8)).getLsbD (7 - k % 8)
  let poly : Block → Polynomial (ZMod 2) := fun E =>
    ∑ k ∈ Finset.range 128, if bit E k then Polynomial.X ^ k else 0
  ∀ (x y : Block) (s : State), ∃ Z V : Nat → Block,
    Z 0 = 0 ∧ V 0 = y ∧
    (∀ k < 128, Z (k + 1) = if bit x k then Z k ^^^ V k else Z k) ∧
    (∀ k < 128, V (k + 1) =
      if (V k).getLsbD 0 then (V k >>> 1) ^^^ 0xe1000000000000000000000000000000 else V k >>> 1) ∧
    poly (Z 128) = (poly x * poly y) %ₘ
      (Polynomial.X ^ 128 + Polynomial.X ^ 7 + Polynomial.X ^ 2 + Polynomial.X + 1) ∧
    exec (.gfmul x y) s = .next { s with responses := s.responses ++ [0x00 :: bytesOfBlock (Z 128)] }

/-- Section 3 of 44_galois_hash.md: the multiplication is commutative, associative and distributive over XOR, and the Block
`80 00 .. 00` is its identity. -/
def Obligations.GfMulRingLaws : Prop :=
  (∀ A B : Block, gfMul A B = gfMul B A) ∧
  (∀ A B C : Block, gfMul (gfMul A B) C = gfMul A (gfMul B C)) ∧
  (∀ A B C : Block, gfMul (A ^^^ B) C = gfMul A C ^^^ gfMul B C) ∧
  ∀ A : Block, gfMul A 0x80000000000000000000000000000000 = A

/-- Section 3 of 44_galois_hash.md (rule R154, last law): a product is zero only if an operand is. -/
def Obligations.GfMulHasNoZeroDivisors : Prop :=
  ∀ A B : Block, gfMul A B = 0 → A = 0 ∨ B = 0

/-- Rule R151 (its closed form, which the spec derives, is the next statement): GHASH answers, in every state and under its
operand `h` (not the register `H`), the last value of an accumulator that starts at zero and takes in block after block by
an exclusive or and a field multiplication by `h`. -/
def Obligations.GhashAccumulatesTheBlocks : Prop :=
  ∀ (h : Block) (msg : List Block) (s : State), ∃ Y : Nat → Block,
    Y 0 = 0 ∧ (∀ i M, msg[i]? = some M → Y (i + 1) = gfMul (Y i ^^^ M) h) ∧
    exec (.ghash h msg) s =
      .next { s with responses := s.responses ++ [0x00 :: bytesOfBlock (Y msg.length)] }

/-- Section 1 of 44_galois_hash.md, rule R151's closed form, which the spec derives: GHASH answers, in every state and under
its operand `h` (not the register `H`), the polynomial `M_0 h^m + M_1 h^(m-1) + ... + M_(m-1) h`, reduced. -/
def Obligations.GhashEvaluatesThePolynomial : Prop :=
  let poly : Block → Polynomial (ZMod 2) := fun E =>
    ∑ k ∈ Finset.range 128, if gbit E k then Polynomial.X ^ k else 0
  ∀ (h : Block) (msg : List Block) (s : State), ∃ digest : Block,
    poly digest = (∑ i ∈ Finset.range msg.length, poly (msg.getD i 0) * poly h ^ (msg.length - i)) %ₘ
      (Polynomial.X ^ 128 + Polynomial.X ^ 7 + Polynomial.X ^ 2 + Polynomial.X + 1) ∧
    exec (.ghash h msg) s = .next { s with responses := s.responses ++ [0x00 :: bytesOfBlock digest] }

/-! ### Authenticated encryption -/

/-- Section 1 of 45_aead.md, rule R170: the hash input is a whole number of Blocks, as many as the rule says, and the ciphertext starts at a Block
boundary in it. The rule says so within the bounds of rule R194; for an AAD or a ciphertext of 2^61 bytes or more the trailer
is the model's choice (log 16), and no rule is cited for it. -/
def Obligations.HashInputIsWholeBlocks : Prop :=
  ∀ A C : List Byte,
    (hashInput A C).length = 16 * (ceil16 A.length + ceil16 C.length + 1) ∧
    (blocksOf (hashInput A C)).flatMap bytesOfBlock = pad16 A ++ pad16 C ++ be64 (8 * A.length) ++ be64 (8 * C.length) ∧
    ((hashInput A C).drop (16 * ceil16 A.length)).take C.length = C

/-- Rules R171, R173, and program P4 of 95_test_vectors.md: with a context installed, a nonce of twelve bytes and lengths
within the bounds, AEADE answers the ciphertext CTRX answers, and as tag the digest GHASH answers of the padded AAD, the
padded ciphertext and the two bit lengths under `H`, XORed with what KSB answers for counter 0. -/
def Obligations.AeadeComposesTheComponents : Prop :=
  ∀ (N A P : List Byte) (s : State) (c : KeyContext), N.length = 12 → P.length ≤ 68719476704 →
    A.length ≤ 2305843009213693951 → s.keyCtx = some c →
    ∃ (C : List Byte) (msg : List Block) (J0 digest : Block),
      msg.flatMap bytesOfBlock = A ++ List.replicate (16 * ceil16 A.length - A.length) 0 ++ C ++
        List.replicate (16 * ceil16 C.length - C.length) 0 ++ be64 (8 * A.length) ++ be64 (8 * C.length) ∧
      exec (.ctrx N P) s = .next { s with responses := s.responses ++ [0x00 :: (be64 P.length ++ C)] } ∧
      exec (.ksb N 0) s = .next { s with responses := s.responses ++ [0x00 :: bytesOfBlock J0] } ∧
      exec (.ghash c.h msg) s = .next { s with responses := s.responses ++ [0x00 :: bytesOfBlock digest] } ∧
      exec (.aeade N A P) s = .next { s with responses := s.responses ++
        [0x00 :: (be64 P.length ++ C ++ bytesOfBlock (digest ^^^ J0))] }

/-- Rule R174: with a context installed, a nonce of twelve bytes and lengths within the bounds, AEADD compares the tag
operand with `aead_tag` of the operands; if they are equal it answers what CTRX answers for the ciphertext, and if they
differ the one byte `AuthenticationFailure` and nothing else. -/
def Obligations.AeaddAnswersExactlyWhenTheTagMatches : Prop :=
  ∀ (N A C : List Byte) (tag : Block) (s : State) (c : KeyContext), N.length = 12 → C.length ≤ 68719476704 →
    A.length ≤ 2305843009213693951 → s.keyCtx = some c →
    (tag = aeadTag c.rk c.h (nonceOfBytes N) A C → exec (.aeadd N A C tag) s = exec (.ctrx N C) s ∧
      ∃ P : List Byte, P.length = C.length ∧
        exec (.aeadd N A C tag) s = .next { s with responses := s.responses ++ [0x00 :: (be64 C.length ++ P)] }) ∧
    (tag ≠ aeadTag c.rk c.h (nonceOfBytes N) A C →
      exec (.aeadd N A C tag) s = .next { s with responses := s.responses ++ [[0x03]] })

/-- Rule R178: AEADD of the outputs of AEADE, under the same context, nonce and AAD, in any state, answers `OK` and the
plaintext. -/
def Obligations.AeadRoundTrip : Prop :=
  ∀ (N A P : List Byte) (s : State) (c : KeyContext), N.length = 12 → P.length ≤ 68719476704 →
    A.length ≤ 2305843009213693951 → s.keyCtx = some c →
    ∃ (C : List Byte) (tag : Block), C.length = P.length ∧
      exec (.aeade N A P) s =
        .next { s with responses := s.responses ++ [0x00 :: (be64 C.length ++ C ++ bytesOfBlock tag)] } ∧
      ∀ t : State, t.keyCtx = some c →
        exec (.aeadd N A C tag) t =
          .next { t with responses := t.responses ++ [0x00 :: (be64 P.length ++ P)] }

/-- Section 3 of 45_aead.md, rule R179 (a) and (c), which the spec derives: of a message that verifies, every other tag fails; and if `H` is zero
the tag is `J0` whatever AAD and ciphertext. -/
def Obligations.WrongTagsFail : Prop :=
  ∀ (N A C : List Byte) (tag : Block) (s : State) (c : KeyContext), N.length = 12 → C.length ≤ 68719476704 →
    A.length ≤ 2305843009213693951 → s.keyCtx = some c →
    (exec (.aeadd N A C tag) s ≠ .next { s with responses := s.responses ++ [[0x03]] } →
      ∀ tag' : Block, tag' ≠ tag →
        exec (.aeadd N A C tag') s = .next { s with responses := s.responses ++ [[0x03]] }) ∧
    (c.h = 0 → aeadTag c.rk c.h (nonceOfBytes N) A C = tagMask c.rk (nonceOfBytes N))

/-- Section 3 of 45_aead.md, rule R179 (b), which the spec derives: if `H` is not zero, then of a message that verifies every change of the
ciphertext or of the AAD inside one 16-byte block, lengths unchanged, fails; so does every flip of a single bit. -/
def Obligations.OneBlockChangesAreDetected : Prop :=
  ∀ (N A C : List Byte) (tag : Block) (s : State) (c : KeyContext), N.length = 12 → C.length ≤ 68719476704 →
    A.length ≤ 2305843009213693951 → s.keyCtx = some c → c.h ≠ 0 →
    tag = aeadTag c.rk c.h (nonceOfBytes N) A C →
    (∀ (C' : List Byte) (j : Nat), C'.length = C.length → C' ≠ C → (∀ i : Nat, i / 16 ≠ j → C'[i]? = C[i]?) →
      exec (.aeadd N A C' tag) s = .next { s with responses := s.responses ++ [[0x03]] }) ∧
    ∀ (A' : List Byte) (j : Nat), A'.length = A.length → A' ≠ A → (∀ i : Nat, i / 16 ≠ j → A'[i]? = A[i]?) →
      exec (.aeadd N A' C tag) s = .next { s with responses := s.responses ++ [[0x03]] }

/-- Section 3 of 45_aead.md, rule R177: empty AAD and empty plaintext are valid; the hash input is then the trailer alone, all zero, and the tag is
`J0`; with one of the two empty the hash input is the other padded, and the trailer. For a string of 2^61 bytes or more the
trailer is the model's choice (log 16), and no rule is cited for it. -/
def Obligations.EmptyInputsAreValid : Prop :=
  (∀ (N : List Byte) (s : State) (c : KeyContext), N.length = 12 → s.keyCtx = some c → ∃ J0 : Block,
    exec (.ksb N 0) s = .next { s with responses := s.responses ++ [0x00 :: bytesOfBlock J0] } ∧
    exec (.aeade N [] []) s = .next { s with responses := s.responses ++ [0x00 :: (be64 0 ++ bytesOfBlock J0)] }) ∧
  hashInput [] [] = zeros 16 ∧
  (∀ C : List Byte, hashInput [] C = pad16 C ++ be64 0 ++ be64 (8 * C.length)) ∧
  ∀ A : List Byte, hashInput A [] = pad16 A ++ be64 (8 * A.length) ++ be64 0

/-- Section 3 of 45_aead.md, rule R180 (and R226, whose exclusive-or law the spec derives): the CORE does not detect a
repeated nonce: both commands succeed, and the exclusive or of the two ciphertexts is that of the two plaintexts on their
common length. -/
def Obligations.NonceReuseIsNotDetected : Prop :=
  ∀ (N A A' P P' : List Byte) (s : State) (c : KeyContext), N.length = 12 → P.length ≤ 68719476704 →
    P'.length ≤ 68719476704 → A.length ≤ 2305843009213693951 → A'.length ≤ 2305843009213693951 →
    s.keyCtx = some c →
    ∃ (C C' : List Byte) (tag tag' : Block) (t : State), C.length = P.length ∧ C'.length = P'.length ∧
      exec (.aeade N A P) s = .next t ∧
      t = { s with responses := s.responses ++ [0x00 :: (be64 P.length ++ C ++ bytesOfBlock tag)] } ∧
      exec (.aeade N A' P') t =
        .next { t with responses := t.responses ++ [0x00 :: (be64 P'.length ++ C' ++ bytesOfBlock tag')] } ∧
      xorBytes C C' = xorBytes P P'

/-- Section 2 of 70_reset_and_hazards.md, rule R224: the unkeyed commands other than KSCHED answer the same in every state,
with a key installed or without. -/
def Obligations.UnkeyedCommandsIgnoreTheContext : Prop :=
  ∀ i : Instr, i.op ∈ [Op.sbox, .diff, .cxf, .gfmul, .ghash] → ∃ tail : List Byte, ∀ s : State,
    exec i s = .next { s with responses := s.responses ++ [0x00 :: tail] }

/-- Section 5 of 30_encoding.md, rule R81: the expansions of the document's function forms compute the functions. Run from
any state, the last frame of an expansion is answered `OK` with the function's value for the key given, whatever context was
installed before. -/
def Obligations.DocumentFormsExpandToCommands : Prop :=
  let answers : DocForm → List Byte → Prop := fun d tail => ∀ s : State, ∃ t : State,
    Sys2Proof.core.run d.expand.length { s with inputs := d.expand.map fun i => .command (encode i) } = .next t ∧
    t.inputs = [] ∧ t.responses.getLast? = some (0x00 :: tail)
  (∀ b, answers (.substitute b) [substitute b]) ∧ (∀ w, answers (.diffuse w) (bytes32 (diffuse w))) ∧
  (∀ w, answers (.compound w) (bytes32 (compound w))) ∧
  (∀ (h : Block) (msg : List Block), msg.length < 2 ^ 64 → answers (.ghash h msg) (bytesOfBlock (ghash h msg))) ∧
  ∀ (key N A P : List Byte) (blk : Block) (ctr : Word), key.length = 16 → N.length = 12 →
    P.length ≤ 68719476704 → A.length ≤ 2305843009213693951 →
    let c := contextOfKey (blockOfBytes key)
    let out := aeadEncrypt c.rk c.h (nonceOfBytes N) A P
    answers (.scheduleKey key) [] ∧
    answers (.encrypt key blk) (bytesOfBlock (encWith c.rk blk)) ∧
    answers (.decrypt key blk) (bytesOfBlock (decWith c.rk blk)) ∧
    answers (.keystreamBlock key N ctr) (bytesOfBlock (ksBlock c.rk (nonceOfBytes N) ctr)) ∧
    answers (.hashSubkey key) (bytesOfBlock c.h) ∧
    answers (.tagMask key N) (bytesOfBlock (tagMask c.rk (nonceOfBytes N))) ∧
    answers (.aeadEncrypt key N A P) (be64 P.length ++ out.1 ++ bytesOfBlock out.2) ∧
    answers (.aeadDecrypt key N A out.1 out.2) (be64 P.length ++ P)
end

