-- ==== Sys2Proof/Laws/Bytes.lean ====
section
/-!
SUPPORT. Laws of byte strings and byte order: lengths, and that the readings of a byte string as a number, a word, a Block or
a list of Blocks invert the writings (00_scope.md rule R8).
-/
namespace Sys2Proof

/-- The `n` bytes of a number, most significant first. -/
def beBytes (n v : Nat) : List Byte := (List.range n).map fun k => BitVec.ofNat 8 (v >>> (8 * (n - 1 - k)))

theorem two_pow_eight_mul (n : Nat) : 2 ^ (8 * n) = 256 ^ n := by rw [pow_mul]; norm_num

@[simp] theorem beBytes_length (n v : Nat) : (beBytes n v).length = n := by simp [beBytes]

theorem beBytes_succ (n v : Nat) : beBytes (n + 1) v = BitVec.ofNat 8 (v >>> (8 * n)) :: beBytes n v := by
  simp only [beBytes, List.range_succ_eq_map, List.map_cons, List.map_map]
  congr 1
  apply List.map_congr_left
  intro k _
  simp only [Function.comp]
  congr 3
  omega

theorem beNat_foldl (bs : List Byte) (a : Nat) :
    bs.foldl (fun n b => 256 * n + b.toNat) a = a * 256 ^ bs.length + beNat bs := by
  induction bs generalizing a with
  | nil => simp [beNat]
  | cons b bs ih =>
    simp only [List.foldl_cons, beNat, List.length_cons]
    rw [ih, ih]
    ring

theorem beNat_cons (b : Byte) (bs : List Byte) : beNat (b :: bs) = b.toNat * 256 ^ bs.length + beNat bs := by
  have := beNat_foldl bs b.toNat
  simpa [beNat] using this

theorem beNat_append (as bs : List Byte) : beNat (as ++ bs) = beNat as * 256 ^ bs.length + beNat bs := by
  rw [← beNat_foldl]
  simp [beNat]

theorem beNat_lt (bs : List Byte) : beNat bs < 256 ^ bs.length := by
  induction bs with
  | nil => simp [beNat]
  | cons b bs ih =>
    rw [beNat_cons, List.length_cons, pow_succ]
    have := b.isLt
    nlinarith

theorem beNat_beBytes (n v : Nat) : beNat (beBytes n v) = v % 256 ^ n := by
  induction n with
  | zero => simp [beBytes, beNat, Nat.mod_one]
  | succ n ih =>
    have e : v % 256 ^ (n + 1) = v % 256 ^ n + 256 ^ n * (v / 256 ^ n % 256) := by
      rw [pow_succ, Nat.mod_mul]
    rw [beBytes_succ, beNat_cons, ih, beBytes_length, e, BitVec.toNat_ofNat, Nat.shiftRight_eq_div_pow,
      two_pow_eight_mul]
    ring

theorem beBytes_congr (n v w : Nat) (h : v % 256 ^ n = w % 256 ^ n) : beBytes n v = beBytes n w := by
  induction n with
  | zero => simp [beBytes]
  | succ n ih =>
    rw [beBytes_succ, beBytes_succ, ih]
    · congr 1
      apply BitVec.eq_of_toNat_eq
      have e : ∀ u : Nat, (BitVec.ofNat 8 (u >>> (8 * n))).toNat = u % 256 ^ (n + 1) / 256 ^ n := by
        intro u
        rw [BitVec.toNat_ofNat, Nat.shiftRight_eq_div_pow, two_pow_eight_mul, pow_succ 256 n, Nat.mod_mul_right_div_self]
      rw [e, e, h]
    · have := congrArg (· % 256 ^ n) h
      simpa [pow_succ, Nat.mod_mul_right_mod] using this

theorem beBytes_beNat (bs : List Byte) : beBytes bs.length (beNat bs) = bs := by
  induction bs with
  | nil => rfl
  | cons b bs ih =>
    rw [List.length_cons, beBytes_succ, beNat_cons]
    congr 1
    · apply BitVec.eq_of_toNat_eq
      have := beNat_lt bs
      have hb := b.isLt
      rw [BitVec.toNat_ofNat, Nat.shiftRight_eq_div_pow, two_pow_eight_mul,
        Nat.mul_comm, Nat.mul_add_div (by positivity), Nat.div_eq_of_lt this]
      omega
    · rw [beBytes_congr _ _ (beNat bs), ih]
      simp

theorem be64_eq_beBytes (n : Nat) : be64 n = beBytes 8 n := rfl

theorem bytes32_eq_beBytes (w : Word) : bytes32 w = beBytes 4 w.toNat := by
  simp only [bytes32, beBytes, List.range, List.range.loop, List.map_cons, List.map_nil, List.cons.injEq, and_true]
  refine ⟨?_, ?_, ?_, ?_⟩ <;> (apply BitVec.eq_of_toNat_eq; simp [BitVec.extractLsb'_toNat])

theorem bytesOfBlock_eq_beBytes (B : Block) : bytesOfBlock B = beBytes 16 B.toNat := by
  simp only [bytesOfBlock, beBytes, Config.blockBytes]
  apply List.map_congr_left
  intro k _
  apply BitVec.eq_of_toNat_eq
  simp [Block.byte, BitVec.extractLsb'_toNat]

@[simp] theorem bytesOfBlock_length (B : Block) : (bytesOfBlock B).length = 16 := by
  simp [bytesOfBlock_eq_beBytes]

@[simp] theorem bytes32_length (w : Word) : (bytes32 w).length = 4 := rfl

@[simp] theorem be64_length (n : Nat) : (be64 n).length = 8 := by simp [be64]

@[simp] theorem blockOfBytes_bytesOfBlock (B : Block) : blockOfBytes (bytesOfBlock B) = B := by
  apply BitVec.eq_of_toNat_eq
  have := B.isLt
  rw [blockOfBytes, bytesOfBlock_eq_beBytes, beNat_beBytes, BitVec.toNat_ofNat,
    show (256 : Nat) ^ 16 = 2 ^ 128 by norm_num, Nat.mod_mod, Nat.mod_eq_of_lt this]

theorem bytesOfBlock_blockOfBytes (bs : List Byte) (h : bs.length = 16) : bytesOfBlock (blockOfBytes bs) = bs := by
  have lt := beNat_lt bs
  rw [h, show (256 : Nat) ^ 16 = 2 ^ 128 by norm_num] at lt
  rw [bytesOfBlock_eq_beBytes, blockOfBytes, BitVec.toNat_ofNat, Nat.mod_eq_of_lt lt, ← h, beBytes_beNat]

@[simp] theorem be32_bytes32 (w : Word) : be32 (bytes32 w) = w := by
  apply BitVec.eq_of_toNat_eq
  have := w.isLt
  rw [be32, bytes32_eq_beBytes, beNat_beBytes, BitVec.toNat_ofNat,
    show (256 : Nat) ^ 4 = 2 ^ 32 by norm_num, Nat.mod_mod, Nat.mod_eq_of_lt this]

theorem bytes32_be32 (bs : List Byte) (h : bs.length = 4) : bytes32 (be32 bs) = bs := by
  have lt := beNat_lt bs
  rw [h, show (256 : Nat) ^ 4 = 2 ^ 32 by norm_num] at lt
  rw [bytes32_eq_beBytes, be32, BitVec.toNat_ofNat, Nat.mod_eq_of_lt lt, ← h, beBytes_beNat]

theorem beNat_be64 (n : Nat) (h : n < 2 ^ 64) : beNat (be64 n) = n := by
  rw [be64_eq_beBytes, beNat_beBytes, show (256 : Nat) ^ 8 = 2 ^ 64 by norm_num, Nat.mod_eq_of_lt h]

theorem be64_beNat (bs : List Byte) (h : bs.length = 8) : be64 (beNat bs) = bs := by
  rw [be64_eq_beBytes, ← h, beBytes_beNat]

@[simp] theorem takeBlocks_length (m : Nat) (bs : List Byte) : (takeBlocks m bs).length = m := by
  induction m generalizing bs with
  | zero => rfl
  | succ m ih => simp [takeBlocks, ih]

/-- The Blocks taken from a byte string of whole Blocks spell it out again. -/
theorem takeBlocks_flatMap (m : Nat) (bs : List Byte) (h : bs.length = 16 * m) :
    (takeBlocks m bs).flatMap bytesOfBlock = bs := by
  induction m generalizing bs with
  | zero => simpa [takeBlocks] using (List.length_eq_zero_iff.mp (by simpa using h)).symm
  | succ m ih =>
    rw [takeBlocks, List.flatMap_cons, ih _ (by simp; omega),
      bytesOfBlock_blockOfBytes _ (by simp; omega), List.take_append_drop]

theorem flatMap_bytesOfBlock_length (Bs : List Block) : (Bs.flatMap bytesOfBlock).length = 16 * Bs.length := by
  induction Bs with
  | nil => rfl
  | cons B Bs ih => simp [ih]; omega

/-- The byte string of a list of Blocks is read back as that list. -/
theorem takeBlocks_of_flatMap (Bs : List Block) : takeBlocks Bs.length (Bs.flatMap bytesOfBlock) = Bs := by
  induction Bs with
  | nil => rfl
  | cons B Bs ih =>
    simp only [List.length_cons, takeBlocks, List.flatMap_cons]
    rw [List.take_left' (by simp), List.drop_left' (by simp), ih, blockOfBytes_bytesOfBlock]

theorem pad16_length (bs : List Byte) : (pad16 bs).length = 16 * ceil16 bs.length := by
  simp [pad16, zeros, ceil16]
  omega

end Sys2Proof
end

