-- ==== Sys2Proof/Laws/Aead.lean ====
section
/-!
SUPPORT. Laws of the multiplier's shifting copy and of the tag comparison.
-/
namespace Sys2Proof.Machine

/-- The shifting copy does not depend on the first operand: after `n` bits it is shifted `n` times (rule R150). -/
theorem gfStep_foldl_snd (X Y : Block) (n : Nat) :
    ((List.range n).foldl (gfStep X) (0, Y)).2 = gfShift^[n] Y := by
  induction n with
  | zero => rfl
  | succ n ih =>
    rw [List.range_succ, List.foldl_append, List.foldl_cons, List.foldl_nil, gfStep, ih, Function.iterate_succ_apply']

theorem gfStep_foldl_fst_succ (X Y : Block) (n : Nat) :
    ((List.range (n + 1)).foldl (gfStep X) (0, Y)).1 =
      if gbit X n then ((List.range n).foldl (gfStep X) (0, Y)).1 ^^^ gfShift^[n] Y
      else ((List.range n).foldl (gfStep X) (0, Y)).1 := by
  rw [List.range_succ, List.foldl_append, List.foldl_cons, List.foldl_nil, gfStep, gfStep_foldl_snd]

theorem or_eq_zero_iff (a b : Byte) : a ||| b = 0 ↔ a = 0 ∧ b = 0 := by
  constructor
  · intro h
    constructor
    · apply BitVec.eq_of_getLsbD_eq
      intro i hi
      have := congrArg (BitVec.getLsbD · i) h
      simp at this
      simp [this]
    · apply BitVec.eq_of_getLsbD_eq
      intro i hi
      have := congrArg (BitVec.getLsbD · i) h
      simp at this
      simp [this]
  · rintro ⟨rfl, rfl⟩
    rfl

theorem foldl_or_eq_zero_iff (f : Nat → Byte) (n : Nat) :
    (List.range n).foldl (fun d i => d ||| f i) 0 = 0 ↔ ∀ i < n, f i = 0 := by
  induction n with
  | zero => simp
  | succ n ih =>
    rw [List.range_succ, List.foldl_append, List.foldl_cons, List.foldl_nil, or_eq_zero_iff, ih]
    constructor
    · rintro ⟨h, hn⟩ i hi
      rcases Nat.lt_succ_iff_lt_or_eq.mp hi with h' | rfl
      · exact h i h'
      · exact hn
    · exact fun h => ⟨fun i hi => h i (by omega), h n (by omega)⟩

/-- Two Blocks with the same bytes are equal. -/
theorem eq_of_bytes_eq {a b : Block} (h : ∀ i < 16, Block.byte a i = Block.byte b i) : a = b := by
  rw [← blockOfBytes_bytesOfBlock a, ← blockOfBytes_bytesOfBlock b]
  exact congrArg blockOfBytes (List.map_congr_left fun i hi => h i (List.mem_range.mp hi))

/-- The value of the tag comparison is equality (rule R172). -/
theorem ctEqual_iff (a b : Block) : ctEqual a b = true ↔ a = b := by
  rw [ctEqual, beq_iff_eq, foldl_or_eq_zero_iff fun i => Block.byte a i ^^^ Block.byte b i]
  constructor
  · exact fun h => eq_of_bytes_eq fun i hi => BitVec.xor_eq_zero_iff.mp (h i hi)
  · rintro rfl i _
    simp

end Sys2Proof.Machine
end

