-- ==== Sys2Proof/Laws/Cipher.lean ====
section
/-!
SUPPORT. Laws of the datapath of the cipher and of counter mode: rotation, words of a Block, the key-schedule register, the shape
of the keystream.
-/
namespace Sys2Proof.Machine

/-- A rotation bit by bit. -/
theorem getLsbD_rotateLeft_word (x : Word) (k i : Nat) (h : i < 32) :
    (x.rotateLeft k).getLsbD i = x.getLsbD ((i + (32 - k % 32)) % 32) := by
  have hk : k % 32 < 32 := Nat.mod_lt _ (by norm_num)
  simp only [BitVec.getLsbD_rotateLeft, h, decide_true, Bool.true_and]
  by_cases c : i < k % 32
  · rw [decide_eq_true c, cond_true]
    congr 1
    omega
  · rw [decide_eq_false c, cond_false]
    congr 1
    omega

theorem rotateLeft_xor (a b : Word) (k : Nat) : (a ^^^ b).rotateLeft k = a.rotateLeft k ^^^ b.rotateLeft k := by
  apply BitVec.eq_of_getLsbD_eq
  intro i hi
  simp only [BitVec.getLsbD_xor, getLsbD_rotateLeft_word, hi]

theorem rotateLeft_rotateLeft (a : Word) (j k : Nat) :
    (a.rotateLeft j).rotateLeft k = a.rotateLeft ((j + k) % 32) := by
  apply BitVec.eq_of_getLsbD_eq
  intro i hi
  rw [getLsbD_rotateLeft_word _ _ _ hi, getLsbD_rotateLeft_word _ _ _ (Nat.mod_lt _ (by norm_num)),
    getLsbD_rotateLeft_word _ _ _ hi]
  congr 1
  omega

/-- The words of a Block are the big-endian words of its bytes (rule R54). -/
theorem words_blockOfBytes (B : List Byte) (h : B.length = 16) :
    words (blockOfBytes B) =
      ⟨be32 (B.take 4), be32 ((B.drop 4).take 4), be32 ((B.drop 8).take 4), be32 ((B.drop 12).take 4)⟩ := by
  match B, h with
  | [a0, a1, a2, a3, a4, a5, a6, a7, a8, a9, a10, a11, a12, a13, a14, a15], _ =>
    simp only [words, blockOfBytes, be32, beNat, List.foldl, List.take, List.drop]
    congr 1 <;>
    · apply BitVec.eq_of_toNat_eq
      simp only [BitVec.extractLsb'_toNat, BitVec.toNat_ofNat, Nat.shiftRight_eq_div_pow]
      omega

/-- The bytes of a Block made of four words (rule R54). -/
theorem bytesOfBlock_block (w0 w1 w2 w3 : Word) :
    bytesOfBlock (block w0 w1 w2 w3) = bytes32 w0 ++ bytes32 w1 ++ bytes32 w2 ++ bytes32 w3 := by
  have e : block w0 w1 w2 w3 = blockOfBytes (bytes32 w0 ++ bytes32 w1 ++ bytes32 w2 ++ bytes32 w3) := by
    apply BitVec.eq_of_toNat_eq
    have h0 := w0.isLt
    have h1 := w1.isLt
    have h2 := w2.isLt
    have h3 := w3.isLt
    simp only [block, BitVec.toNat_append, blockOfBytes, BitVec.toNat_ofNat, beNat_append, bytes32_eq_beBytes,
      beNat_beBytes, beBytes_length]
    rw [← Nat.shiftLeft_add_eq_or_of_lt h3, ← Nat.shiftLeft_add_eq_or_of_lt h2, ← Nat.shiftLeft_add_eq_or_of_lt h1]
    simp only [Nat.shiftLeft_eq]
    norm_num
    omega
  rw [e, bytesOfBlock_blockOfBytes]
  simp

/-- Splitting a Block into words and putting them together again. -/
theorem words_block (w0 w1 w2 w3 : Word) : words (block w0 w1 w2 w3) = ⟨w0, w1, w2, w3⟩ := by
  have take : ∀ (w : Word) (r : List Byte), (bytes32 w ++ r).take 4 = bytes32 w := fun w r => List.take_left' (bytes32_length w)
  have drop : ∀ (n : Nat) (w : Word) (r : List Byte), (bytes32 w ++ r).drop (n + 4) = r.drop n := fun n w r => by
    rw [Nat.add_comm, ← List.drop_drop, List.drop_left' (bytes32_length w)]
  have h := words_blockOfBytes (bytesOfBlock (block w0 w1 w2 w3)) (by simp)
  rw [blockOfBytes_bytesOfBlock, bytesOfBlock_block, ← List.append_nil (bytes32 w0 ++ _ ++ _ ++ _)] at h
  simp only [List.append_assoc] at h
  rw [h, drop 0, drop 4, drop 0, drop 8, drop 4, drop 0]
  simp only [List.drop_zero, take, be32_bytes32]

/-- The key-schedule register after a write (rule R31). -/
theorem ksGet_ksSet (K : Words4) (i j : Nat) (v : Word) :
    ksGet (ksSet K i v) j = if j % 4 = i % 4 then v else ksGet K j := by
  have hi : i % 4 < 4 := Nat.mod_lt _ (by norm_num)
  have hj : j % 4 < 4 := Nat.mod_lt _ (by norm_num)
  unfold ksGet ksSet
  generalize i % 4 = a at *
  generalize j % 4 = b at *
  interval_cases a <;> interval_cases b <;> rfl

/-- The round constants by their formula (rule R27). -/
theorem ck_formula : ∀ i < 32, Params.ck.getD i 0 =
    be32 ((List.range 4).map fun j => BitVec.ofNat 8 ((4 * i + j) * 7)) := by
  decide +kernel

/-- The counter block in bytes (rule R57). -/
theorem ctrBlock_nonceOfBytes (N : List Byte) (w : Word) :
    ctrBlock (nonceOfBytes N) w = blockOfBytes (N ++ bytes32 w) := by
  apply BitVec.eq_of_toNat_eq
  have hw := w.isLt
  simp only [ctrBlock, BitVec.toNat_append, nonceOfBytes, blockOfBytes, BitVec.toNat_ofNat, beNat_append,
    bytes32_eq_beBytes, beNat_beBytes, beBytes_length]
  rw [← Nat.shiftLeft_add_eq_or_of_lt hw, Nat.shiftLeft_eq]
  norm_num
  omega

theorem dataCounter_eq (j : Nat) : dataCounter j = 1 + j := by
  simp [dataCounter, Params.ctrBase]

theorem le_ceil16 (n : Nat) : n ≤ 16 * ceil16 n := by
  unfold ceil16
  omega

theorem ctrXorBlocks_length (rk : Vector Word 32) (N : Nonce) (m j : Nat) (D : List Byte) (h : D.length ≤ 16 * m) :
    (ctrXorBlocks rk N m j D).length = D.length := by
  induction m generalizing j D with
  | zero =>
    have : D = [] := List.length_eq_zero_iff.mp (by omega)
    simp [this, ctrXorBlocks]
  | succ m ih =>
    rw [ctrXorBlocks, List.length_append, ih _ _ (by simp; omega)]
    simp [xorBytes]
    omega

theorem getElem?_bytesOfBlock (B : Block) (i : Nat) (h : i < 16) : (bytesOfBlock B)[i]? = some (Block.byte B i) := by
  simp [bytesOfBlock, h]

end Sys2Proof.Machine
end

