-- ==== Sys2Proof/Laws/Decode.lean ====
section
/-!
SUPPORT. Laws of the field readers (30_encoding.md rule R76): each reads what the encoder writes (rule R72) and leaves the rest, and
what it accepts is what the encoder writes; and the opcode map is one to one.
-/
namespace Sys2Proof

theorem needBytes_append (k : Nat) (a r : List Byte) (h : a.length = k) : needBytes k (a ++ r) = .ok (a, r) := by
  subst h
  simp [needBytes]

theorem needBytes_ok {k : Nat} {bs a r : List Byte} (h : needBytes k bs = .ok (a, r)) :
    a.length = k ∧ bs = a ++ r := by
  unfold needBytes at h
  split at h
  · cases h
    simp [*]
  · cases h

theorem needBytes_error {k : Nat} {bs : List Byte} (h : bs.length < k) : needBytes k bs = .error .truncated := by
  simp [needBytes, Nat.not_le.mpr h]

@[simp] theorem readU8_cons (b : Byte) (r : List Byte) : readU8 (b :: r) = .ok (b, r) := rfl

@[simp] theorem readW32_bytes32 (w : Word) (r : List Byte) : readW32 (bytes32 w ++ r) = .ok (w, r) := by
  rw [readW32, needBytes_append 4 _ _ (bytes32_length w)]
  simp [bind, Except.bind]

@[simp] theorem readBlk_bytesOfBlock (B : Block) (r : List Byte) : readBlk (bytesOfBlock B ++ r) = .ok (B, r) := by
  simp [readBlk, needBytes_append 16, bind, Except.bind]

theorem readVar_be64 (bs r : List Byte) (h : bs.length < 2 ^ 64) :
    readVar (be64 bs.length ++ (bs ++ r)) = .ok (bs, r) := by
  simp [readVar, needBytes_append 8, bind, Except.bind, beNat_be64 _ h, needBytes_append bs.length]

theorem readBlks_be64 (Bs : List Block) (r : List Byte) (h : Bs.length < 2 ^ 64) :
    readBlks (be64 Bs.length ++ (Bs.flatMap bytesOfBlock ++ r)) = .ok (Bs, r) := by
  simp [readBlks, needBytes_append 8, bind, Except.bind, beNat_be64 _ h,
    needBytes_append _ _ _ (flatMap_bytesOfBlock_length Bs), takeBlocks_of_flatMap]

theorem readU8_ok {bs r : List Byte} {b : Byte} (h : readU8 bs = .ok (b, r)) : bs = b :: r := by
  cases bs with
  | nil => cases h
  | cons c cs => cases h; rfl

theorem readW32_ok {bs r : List Byte} {w : Word} (h : readW32 bs = .ok (w, r)) : bs = bytes32 w ++ r := by
  unfold readW32 at h
  cases e : needBytes 4 bs with
  | error x => simp [e, bind, Except.bind] at h
  | ok p =>
    obtain ⟨len, rfl⟩ := needBytes_ok e
    simp only [e, bind, Except.bind, Except.ok.injEq, Prod.mk.injEq] at h
    obtain ⟨rfl, rfl⟩ := h
    rw [bytes32_be32 _ len]

theorem readBlk_ok {bs r : List Byte} {B : Block} (h : readBlk bs = .ok (B, r)) : bs = bytesOfBlock B ++ r := by
  unfold readBlk at h
  cases e : needBytes 16 bs with
  | error x => simp [e, bind, Except.bind] at h
  | ok p =>
    obtain ⟨len, rfl⟩ := needBytes_ok e
    simp only [e, bind, Except.bind, Except.ok.injEq, Prod.mk.injEq] at h
    obtain ⟨rfl, rfl⟩ := h
    rw [bytesOfBlock_blockOfBytes _ len]

theorem readVar_ok {bs v r : List Byte} (h : readVar bs = .ok (v, r)) :
    v.length < 2 ^ 64 ∧ bs = be64 v.length ++ (v ++ r) := by
  unfold readVar at h
  cases e : needBytes 8 bs with
  | error x => simp [e, bind, Except.bind] at h
  | ok p =>
    obtain ⟨len, rfl⟩ := needBytes_ok e
    simp only [e, bind, Except.bind] at h
    obtain ⟨len', e'⟩ := needBytes_ok h
    have lt := beNat_lt p.1
    rw [len] at lt
    rw [len', be64_beNat _ len, e']
    exact ⟨by omega, rfl⟩

theorem readBlks_ok {bs r : List Byte} {Bs : List Block} (h : readBlks bs = .ok (Bs, r)) :
    Bs.length < 2 ^ 64 ∧ bs = be64 Bs.length ++ (Bs.flatMap bytesOfBlock ++ r) := by
  unfold readBlks at h
  cases e : needBytes 8 bs with
  | error x => simp [e, bind, Except.bind] at h
  | ok p =>
    obtain ⟨len, rfl⟩ := needBytes_ok e
    simp only [e, bind, Except.bind] at h
    cases e' : needBytes (16 * beNat p.1) p.2 with
    | error x => simp [e'] at h
    | ok q =>
      obtain ⟨len', e''⟩ := needBytes_ok e'
      simp only [e', Except.ok.injEq, Prod.mk.injEq] at h
      obtain ⟨rfl, rfl⟩ := h
      have lt := beNat_lt p.1
      rw [len] at lt
      rw [takeBlocks_length, be64_beNat _ len, takeBlocks_flatMap _ _ len', e'']
      exact ⟨by omega, rfl⟩

/-- A byte names an operation exactly when it is that operation's code: the twelve codes are distinct. -/
theorem opOfByte_eq_some {b : Byte} {op : Op} : opOfByte b = some op ↔ b = op.code := by
  constructor
  · intro h
    have := List.find?_some h
    simpa using (beq_iff_eq.mp this).symm
  · rintro rfl
    cases op <;> rfl

@[simp] theorem opOfByte_code (op : Op) : opOfByte op.code = some op := opOfByte_eq_some.mpr rfl

theorem decode_code_cons (op : Op) (bs : List Byte) :
    decode (op.code :: bs) = readOperands op bs >>= endOfFrame := by
  simp [decode]

end Sys2Proof
end

