-- ==== Sys2Proof/Laws/State.lean ====
section
/-!
SUPPORT. One lemma per field of State and per update of it, so that no proof unfolds a record update.
-/
namespace Sys2Proof.Machine

@[simp] theorem respond_keyCtx (s : State) (F : Frame) : (s.respond F).keyCtx = s.keyCtx := rfl
@[simp] theorem respond_inputs (s : State) (F : Frame) : (s.respond F).inputs = s.inputs := rfl
@[simp] theorem respond_responses (s : State) (F : Frame) : (s.respond F).responses = s.responses ++ [F] := rfl
@[simp] theorem respond_sched (s : State) (F : Frame) : (s.respond F).sched = s.sched := rfl

@[simp] theorem install_keyCtx (s : State) (c : KeyContext) : (s.install c).keyCtx = some c := rfl
@[simp] theorem install_inputs (s : State) (c : KeyContext) : (s.install c).inputs = s.inputs := rfl
@[simp] theorem install_responses (s : State) (c : KeyContext) : (s.install c).responses = s.responses := rfl
@[simp] theorem install_sched (s : State) (c : KeyContext) : (s.install c).sched = true := rfl

@[simp] theorem afterReset_keyCtx (s : State) : s.afterReset.keyCtx = none := rfl
@[simp] theorem afterReset_inputs (s : State) : s.afterReset.inputs = s.inputs := rfl
@[simp] theorem afterReset_responses (s : State) : s.afterReset.responses = [] := rfl
@[simp] theorem afterReset_sched (s : State) : s.afterReset.sched = false := rfl

@[simp] theorem reset_keyCtx : State.reset.keyCtx = none := rfl
@[simp] theorem reset_inputs : State.reset.inputs = [] := rfl
@[simp] theorem reset_responses : State.reset.responses = [] := rfl

@[simp] theorem withFetchWord_keyCtx (s : State) (n w : Nat) : (s.withFetchWord n w).keyCtx = s.keyCtx := rfl
@[simp] theorem withFetchWord_inputs (s : State) (n w : Nat) :
    (s.withFetchWord n w).inputs = .command (frameOfTableWord n w) :: s.inputs := rfl
@[simp] theorem withFetchWord_responses (s : State) (n w : Nat) : (s.withFetchWord n w).responses = s.responses := rfl

/-- `SCHED = 1` exactly when a context is installed. -/
theorem sched_eq_true_iff (s : State) : s.sched = true ↔ ∃ c, s.keyCtx = some c := Option.isSome_iff_exists

/-- `SCHED = 0` exactly when none is. -/
theorem sched_eq_false_iff (s : State) : s.sched = false ↔ s.keyCtx = none := by
  simp [State.sched]

end Sys2Proof.Machine
end

