-- ==== Sys2Proof/Laws/Ops.lean ====
section
/-!
SUPPORT. One lemma per shared operation that says what it does, and the inversion lemmas that say once what a command and a step can
do; proofs cite these and do not unfold the meanings.
-/
namespace Sys2Proof.Machine

theorem raise_eq (st : Status) (s : State) : raise st s = .next (s.respond [st.code]) := rfl

theorem complete_eq (fields : List Field) (s : State) : complete fields s = .next (s.respond (okFrame fields)) := rfl

@[simp] theorem okFrame_eq (fields : List Field) : okFrame fields = 0x00 :: fields.flatMap Field.encode := rfl

theorem keyed_none {s : State} (h : s.keyCtx = none) (go : KeyContext → Answer) :
    keyed s go = raise .notScheduled s := by
  simp [keyed, h]

theorem keyed_some {s : State} {c : KeyContext} (h : s.keyCtx = some c) (go : KeyContext → Answer) :
    keyed s go = go c := by
  simp [keyed, h]

theorem withKey_of_length {key : List Byte} (h : key.length = 16) (s : State) (go : Block → Answer) :
    withKey key s go = go (blockOfBytes key) := if_pos h

theorem withKey_of_length_ne {key : List Byte} (h : key.length ≠ 16) (s : State) (go : Block → Answer) :
    withKey key s go = raise .invalidKeyLength s := if_neg h

theorem withNonce_of_length {nonce : List Byte} (h : nonce.length = 12) (s : State) (go : Nonce → Answer) :
    withNonce nonce s go = go (nonceOfBytes nonce) := if_pos h

theorem withNonce_of_length_ne {nonce : List Byte} (h : nonce.length ≠ 12) (s : State) (go : Nonce → Answer) :
    withNonce nonce s go = raise .invalidNonceLength s := if_neg h

theorem withinBounds_of_le {data aad : List Byte} (hd : data.length ≤ 2 ^ 36 - 32) (ha : aad.length ≤ 2 ^ 61 - 1)
    (s : State) (go : Answer) : withinBounds data aad s go = go := by
  refine if_neg ?_
  simp only [Params.maxDataBytes, Params.maxAadBytes]
  omega

theorem withinBounds_of_lt {data aad : List Byte} (h : 2 ^ 36 - 32 < data.length ∨ 2 ^ 61 - 1 < aad.length)
    (s : State) (go : Answer) : withinBounds data aad s go = raise .messageTooLong s := if_pos h

/-- What a keyed command can answer: it raises `NotScheduled`, or it goes on with the installed context. -/
theorem keyed_cases (s : State) (go : KeyContext → Answer) :
    (s.keyCtx = none ∧ keyed s go = raise .notScheduled s) ∨ ∃ c, s.keyCtx = some c ∧ keyed s go = go c := by
  cases h : s.keyCtx with
  | none => exact .inl ⟨rfl, keyed_none h go⟩
  | some c => exact .inr ⟨c, rfl, keyed_some h go⟩

theorem withKey_cases (key : List Byte) (s : State) (go : Block → Answer) :
    (key.length ≠ 16 ∧ withKey key s go = raise .invalidKeyLength s) ∨
      (key.length = 16 ∧ withKey key s go = go (blockOfBytes key)) := by
  by_cases h : key.length = 16
  · exact .inr ⟨h, withKey_of_length h s go⟩
  · exact .inl ⟨h, withKey_of_length_ne h s go⟩

theorem withNonce_cases (nonce : List Byte) (s : State) (go : Nonce → Answer) :
    (nonce.length ≠ 12 ∧ withNonce nonce s go = raise .invalidNonceLength s) ∨
      (nonce.length = 12 ∧ withNonce nonce s go = go (nonceOfBytes nonce)) := by
  by_cases h : nonce.length = 12
  · exact .inr ⟨h, withNonce_of_length h s go⟩
  · exact .inl ⟨h, withNonce_of_length_ne h s go⟩

theorem withinBounds_cases (data aad : List Byte) (s : State) (go : Answer) :
    ((2 ^ 36 - 32 < data.length ∨ 2 ^ 61 - 1 < aad.length) ∧ withinBounds data aad s go = raise .messageTooLong s) ∨
      (data.length ≤ 2 ^ 36 - 32 ∧ aad.length ≤ 2 ^ 61 - 1 ∧ withinBounds data aad s go = go) := by
  by_cases h : 2 ^ 36 - 32 < data.length ∨ 2 ^ 61 - 1 < aad.length
  · exact .inl ⟨h, withinBounds_of_lt h s go⟩
  · have h' : data.length ≤ 2 ^ 36 - 32 ∧ aad.length ≤ 2 ^ 61 - 1 := by omega
    exact .inr ⟨h'.1, h'.2, withinBounds_of_le h'.1 h'.2 s go⟩

/-- What a command that is not KSCHED can answer: an error status of its column in rule R190, or `OK` with the fields of its
response format; KSCHED: `InvalidKeyLength`, or the context of the key installed. -/
inductive Answers (i : Instr) (s : State) : Prop
  | raised (st : Status) (mem : st ∈ i.op.mayRaise) (eq : exec i s = raise st s)
  | completed (fields : List Field) (kinds : fields.map Field.kind = i.op.resultFormat) (op : i.op ≠ .ksched)
      (eq : exec i s = complete fields s)
  | scheduled (key : List Byte) (cmd : i = .ksched key) (len : key.length = 16)
      (eq : exec i s = complete [] (s.install (contextOfKey (blockOfBytes key))))

/-- Every command answers in one of these ways. -/
theorem exec_answers (i : Instr) (s : State) : Answers i s := by
  cases i with
  | sbox b => exact .completed _ rfl (by simp [Instr.op]) rfl
  | diff w => exact .completed _ rfl (by simp [Instr.op]) rfl
  | cxf w => exact .completed _ rfl (by simp [Instr.op]) rfl
  | ksched key =>
    obtain ⟨-, e⟩ | ⟨h, e⟩ := withKey_cases key s fun k => complete [] (s.install (contextOfKey k))
    · exact .raised .invalidKeyLength (by simp [Instr.op, Op.mayRaise]) e
    · exact .scheduled key rfl h e
  | encb blk =>
    obtain ⟨-, e⟩ | ⟨c, -, e⟩ := keyed_cases s fun c => complete [.blk (encWith c.rk blk)] s
    · exact .raised .notScheduled (by simp [Instr.op, Op.mayRaise]) e
    · exact .completed _ rfl (by simp [Instr.op]) e
  | decb blk =>
    obtain ⟨-, e⟩ | ⟨c, -, e⟩ := keyed_cases s fun c => complete [.blk (decWith c.rk blk)] s
    · exact .raised .notScheduled (by simp [Instr.op, Op.mayRaise]) e
    · exact .completed _ rfl (by simp [Instr.op]) e
  | ksb nonce ctr =>
    obtain ⟨-, e⟩ | ⟨c, -, e⟩ := keyed_cases s fun c => withNonce nonce s fun N => complete [.blk (ksBlock c.rk N ctr)] s
    · exact .raised .notScheduled (by simp [Instr.op, Op.mayRaise]) e
    obtain ⟨-, e'⟩ | ⟨-, e'⟩ := withNonce_cases nonce s fun N => complete [.blk (ksBlock c.rk N ctr)] s
    · exact .raised .invalidNonceLength (by simp [Instr.op, Op.mayRaise]) (e.trans e')
    · exact .completed [.blk _] rfl (by simp [Instr.op]) (e.trans e')
  | ctrx nonce data =>
    obtain ⟨-, e⟩ | ⟨c, -, e⟩ := keyed_cases s fun c => withNonce nonce s fun N =>
      withinBounds data [] s (complete [.var (ctrXor c.rk N data)] s)
    · exact .raised .notScheduled (by simp [Instr.op, Op.mayRaise]) e
    obtain ⟨-, e'⟩ | ⟨-, e'⟩ := withNonce_cases nonce s fun N =>
      withinBounds data [] s (complete [.var (ctrXor c.rk N data)] s)
    · exact .raised .invalidNonceLength (by simp [Instr.op, Op.mayRaise]) (e.trans e')
    obtain ⟨-, e''⟩ | ⟨-, -, e''⟩ := withinBounds_cases data [] s
      (complete [.var (ctrXor c.rk (nonceOfBytes nonce) data)] s)
    · exact .raised .messageTooLong (by simp [Instr.op, Op.mayRaise]) (e.trans (e'.trans e''))
    · exact .completed [.var _] rfl (by simp [Instr.op]) (e.trans (e'.trans e''))
  | gfmul x y => exact .completed _ rfl (by simp [Instr.op]) rfl
  | ghash h msg => exact .completed _ rfl (by simp [Instr.op]) rfl
  | aeade nonce aad pt =>
    obtain ⟨-, e⟩ | ⟨c, -, e⟩ := keyed_cases s fun c => withNonce nonce s fun N => withinBounds pt aad s <|
      complete [.var (aeadEncrypt c.rk c.h N aad pt).1, .blk (aeadEncrypt c.rk c.h N aad pt).2] s
    · exact .raised .notScheduled (by simp [Instr.op, Op.mayRaise]) e
    obtain ⟨-, e'⟩ | ⟨-, e'⟩ := withNonce_cases nonce s fun N => withinBounds pt aad s <|
      complete [.var (aeadEncrypt c.rk c.h N aad pt).1, .blk (aeadEncrypt c.rk c.h N aad pt).2] s
    · exact .raised .invalidNonceLength (by simp [Instr.op, Op.mayRaise]) (e.trans e')
    obtain ⟨-, e''⟩ | ⟨-, -, e''⟩ := withinBounds_cases pt aad s
      (complete [.var (aeadEncrypt c.rk c.h (nonceOfBytes nonce) aad pt).1,
        .blk (aeadEncrypt c.rk c.h (nonceOfBytes nonce) aad pt).2] s)
    · exact .raised .messageTooLong (by simp [Instr.op, Op.mayRaise]) (e.trans (e'.trans e''))
    · exact .completed [.var _, .blk _] rfl (by simp [Instr.op]) (e.trans (e'.trans e''))
  | aeadd nonce aad ct tag =>
    let answer : KeyContext → Nonce → Answer := fun c N =>
      match aeadDecrypt c.rk c.h N aad ct tag with
      | none => raise .authenticationFailure s
      | some pt => complete [.var pt] s
    obtain ⟨-, e⟩ | ⟨c, -, e⟩ := keyed_cases s fun c => withNonce nonce s fun N => withinBounds ct aad s (answer c N)
    · exact .raised .notScheduled (by simp [Instr.op, Op.mayRaise]) e
    obtain ⟨-, e'⟩ | ⟨-, e'⟩ := withNonce_cases nonce s fun N => withinBounds ct aad s (answer c N)
    · exact .raised .invalidNonceLength (by simp [Instr.op, Op.mayRaise]) (e.trans e')
    obtain ⟨-, e''⟩ | ⟨-, -, e''⟩ := withinBounds_cases ct aad s (answer c (nonceOfBytes nonce))
    · exact .raised .messageTooLong (by simp [Instr.op, Op.mayRaise]) (e.trans (e'.trans e''))
    cases d : aeadDecrypt c.rk c.h (nonceOfBytes nonce) aad ct tag with
    | none =>
      exact .raised .authenticationFailure (by simp [Instr.op, Op.mayRaise])
        (e.trans (e'.trans (e''.trans (by simp [answer, d]))))
    | some pt =>
      exact .completed [.var pt] rfl (by simp [Instr.op]) (e.trans (e'.trans (e''.trans (by simp [answer, d]))))

/-- What a step can do: nothing, reset, refuse a frame with `IllegalCommand`, or execute the command the frame decodes to. -/
inductive Steps (s : State) : Prop
  | idle (none : s.inputs = []) (eq : step s = .next s)
  | reset (rest : List HostInput) (input : s.inputs = .reset :: rest)
      (eq : step s = .next { State.reset with inputs := rest })
  | illegal (F : Frame) (rest : List HostInput) (e : Illegal) (input : s.inputs = .command F :: rest)
      (dec : decode F = .error e) (eq : step s = raise .illegalCommand { s with inputs := rest })
  | command (F : Frame) (rest : List HostInput) (i : Instr) (input : s.inputs = .command F :: rest)
      (dec : decode F = .ok i) (eq : step s = exec i { s with inputs := rest })

/-- Every step does one of these. -/
theorem step_cases (s : State) : Steps s := by
  obtain ⟨ctx, inputs, out⟩ := s
  cases inputs with
  | nil => exact .idle rfl rfl
  | cons x rest =>
    cases x with
    | reset => exact .reset rest rfl rfl
    | command F =>
      cases d : decode F with
      | error e => exact .illegal F rest e rfl d (by simp [step, runFrame, d, answerIllegal])
      | ok i => exact .command F rest i rfl d (by simp [step, runFrame, d])

end Sys2Proof.Machine
end

