-- ==== Sys2Proof/Laws/PerInstr.lean ====
section
/-!
SUPPORT. Two families of laws about the commands as syntax, one lemma per constructor: the length of a command's frame, and the kinds
of its fields (30_encoding.md rule R73).
-/
namespace Sys2Proof.Laws

/-- The length of a command's frame is the one rule R73 gives. -/
def FrameLength.Statement (i : Instr) : Prop := (encode i).length = i.frameLength

/-- The fields of a command are of the kinds its format lists, in that order (rule R73). -/
def FieldKinds.Statement (i : Instr) : Prop := i.fields.map Field.kind = i.op.format

/-- The length of each kind of field (rule R72). -/
theorem field_encode_length (f : Field) : f.encode.length =
    match f with
    | .u8 _ => 1
    | .w32 _ => 4
    | .blk _ => 16
    | .var bs => 8 + bs.length
    | .blks Bs => 8 + 16 * Bs.length := by
  cases f with
  | u8 b => rfl
  | w32 w => rfl
  | blk B => exact bytesOfBlock_length B
  | var bs => simp [Field.encode]
  | blks Bs => rw [Field.encode, List.length_append, be64_length, flatMap_bytesOfBlock_length]

/-- The length of a frame field by field. -/
theorem encode_length (i : Instr) : (encode i).length = 1 + (i.fields.map fun f => f.encode.length).sum := by
  rw [encode, List.length_cons, List.length_flatMap, Nat.add_comm]

theorem FrameLength.sbox (b : Byte) : FrameLength.Statement (.sbox b) := by
  rw [FrameLength.Statement, encode_length]
  simp [Instr.fields, field_encode_length, Instr.frameLength]

theorem FrameLength.diff (w : Word) : FrameLength.Statement (.diff w) := by
  rw [FrameLength.Statement, encode_length]
  simp [Instr.fields, field_encode_length, Instr.frameLength]

theorem FrameLength.cxf (w : Word) : FrameLength.Statement (.cxf w) := by
  rw [FrameLength.Statement, encode_length]
  simp [Instr.fields, field_encode_length, Instr.frameLength]

theorem FrameLength.ksched (key : List Byte) : FrameLength.Statement (.ksched key) := by
  rw [FrameLength.Statement, encode_length]
  simp [Instr.fields, field_encode_length, Instr.frameLength]
  omega

theorem FrameLength.encb (blk : Block) : FrameLength.Statement (.encb blk) := by
  rw [FrameLength.Statement, encode_length]
  simp [Instr.fields, field_encode_length, Instr.frameLength]

theorem FrameLength.decb (blk : Block) : FrameLength.Statement (.decb blk) := by
  rw [FrameLength.Statement, encode_length]
  simp [Instr.fields, field_encode_length, Instr.frameLength]

theorem FrameLength.ksb (nonce : List Byte) (ctr : Word) : FrameLength.Statement (.ksb nonce ctr) := by
  rw [FrameLength.Statement, encode_length]
  simp [Instr.fields, field_encode_length, Instr.frameLength]
  omega

theorem FrameLength.ctrx (nonce data : List Byte) : FrameLength.Statement (.ctrx nonce data) := by
  rw [FrameLength.Statement, encode_length]
  simp [Instr.fields, field_encode_length, Instr.frameLength]
  omega

theorem FrameLength.gfmul (x y : Block) : FrameLength.Statement (.gfmul x y) := by
  rw [FrameLength.Statement, encode_length]
  simp [Instr.fields, field_encode_length, Instr.frameLength]

theorem FrameLength.ghash (h : Block) (msg : List Block) : FrameLength.Statement (.ghash h msg) := by
  rw [FrameLength.Statement, encode_length]
  simp [Instr.fields, field_encode_length, Instr.frameLength]
  omega

theorem FrameLength.aeade (nonce aad pt : List Byte) : FrameLength.Statement (.aeade nonce aad pt) := by
  rw [FrameLength.Statement, encode_length]
  simp [Instr.fields, field_encode_length, Instr.frameLength]
  omega

theorem FrameLength.aeadd (nonce aad ct : List Byte) (tag : Block) : FrameLength.Statement (.aeadd nonce aad ct tag) := by
  rw [FrameLength.Statement, encode_length]
  simp [Instr.fields, field_encode_length, Instr.frameLength]
  omega

theorem FieldKinds.sbox (b : Byte) : FieldKinds.Statement (.sbox b) := rfl
theorem FieldKinds.diff (w : Word) : FieldKinds.Statement (.diff w) := rfl
theorem FieldKinds.cxf (w : Word) : FieldKinds.Statement (.cxf w) := rfl
theorem FieldKinds.ksched (key : List Byte) : FieldKinds.Statement (.ksched key) := rfl
theorem FieldKinds.encb (blk : Block) : FieldKinds.Statement (.encb blk) := rfl
theorem FieldKinds.decb (blk : Block) : FieldKinds.Statement (.decb blk) := rfl
theorem FieldKinds.ksb (nonce : List Byte) (ctr : Word) : FieldKinds.Statement (.ksb nonce ctr) := rfl
theorem FieldKinds.ctrx (nonce data : List Byte) : FieldKinds.Statement (.ctrx nonce data) := rfl
theorem FieldKinds.gfmul (x y : Block) : FieldKinds.Statement (.gfmul x y) := rfl
theorem FieldKinds.ghash (h : Block) (msg : List Block) : FieldKinds.Statement (.ghash h msg) := rfl
theorem FieldKinds.aeade (nonce aad pt : List Byte) : FieldKinds.Statement (.aeade nonce aad pt) := rfl
theorem FieldKinds.aeadd (nonce aad ct : List Byte) (tag : Block) : FieldKinds.Statement (.aeadd nonce aad ct tag) := rfl

end Sys2Proof.Laws
end

