-- ==== Sys2Proof/Laws/Run.lean ====
section
/-!
SUPPORT. A run step by step, and what a command answers that installs no key, or finds none installed.
-/
namespace Sys2Proof.Machine

theorem core_run_zero (s : State) : Sys2Proof.core.run 0 s = .next s := rfl

/-- A run whose first step answers a next state is that state's run with a step less. -/
theorem core_run_succ {s t : State} (h : step s = .next t) (n : Nat) :
    Sys2Proof.core.run (n + 1) s = Sys2Proof.core.run n t := by
  have h' : Sys2Proof.core.step s = .next t := h
  have u := Host.Core.run.eq_2 Sys2Proof.core s n
  rwa [h'] at u

/-- Every command but a KSCHED with a 16-byte key adds one response and changes nothing else, in every state. -/
theorem exec_of_not_ksched {i : Instr} {s : State}
    (hk : ∀ key, i = .ksched key → key.length ≠ 16) : ∃ R : Frame, exec i s = .next (s.respond R) := by
  obtain ⟨st, -, e⟩ | ⟨fields, -, -, e⟩ | ⟨key, cmd, len, -⟩ := exec_answers i s
  · exact ⟨_, e⟩
  · exact ⟨_, e⟩
  · exact absurd len (hk key cmd)

/-- With no context installed a keyed command raises `NotScheduled` (60_exceptions.md rule R195). -/
theorem exec_keyed_of_no_context {i : Instr} {s : State} (h : s.keyCtx = none) (hk : i.op.keyed = true) :
    exec i s = raise .notScheduled s := by
  cases i <;> first | cases hk; done | exact keyed_none h _

end Sys2Proof.Machine
end

