-- ==== Sys2Proof/Machine/Text.lean ====
section
/-!
DEFINITION. The textual syntax of commands and responses (30_encoding.md rule R80), as lists of characters: printing, and reading a
line as the frame it stands for. The CORE sees frames only; nothing of `step` depends on this file (log 15).
-/
namespace Sys2Proof

/-- A hexadecimal digit, lower case. -/
def hexDigit (n : Nat) : Char := "0123456789abcdef".toList.getD n '?'

/-- Two hexadecimal digits a byte, in index order (00_scope.md rule R6). -/
def hexBytes (bs : List Byte) : List Char :=
  bs.flatMap fun b => [hexDigit (b.toNat / 16), hexDigit (b.toNat % 16)]

/-- A field's value (rule R80): two, eight or thirty-two digits, or as many as the string has. -/
def Field.text : Field → List Char
  | .u8 b => hexBytes [b]
  | .w32 w => hexBytes (bytes32 w)
  | .blk B => hexBytes (bytesOfBlock B)
  | .var bs => hexBytes bs
  | .blks Bs => hexBytes (Bs.flatMap bytesOfBlock)

/-- The mnemonics in capitals (rules R75, R80). -/
def Op.mnemonic : Op → String
  | .sbox => "SBOX"
  | .diff => "DIFF"
  | .cxf => "CXF"
  | .ksched => "KSCHED"
  | .encb => "ENCB"
  | .decb => "DECB"
  | .ksb => "KSB"
  | .ctrx => "CTRX"
  | .gfmul => "GFMUL"
  | .ghash => "GHASH"
  | .aeade => "AEADE"
  | .aeadd => "AEADD"

/-- The names of the operand fields in frame order (rule R73). -/
def Op.fieldNames : Op → List String
  | .sbox => ["b"]
  | .diff => ["w"]
  | .cxf => ["w"]
  | .ksched => ["key"]
  | .encb => ["blk"]
  | .decb => ["blk"]
  | .ksb => ["nonce", "ctr"]
  | .ctrx => ["nonce", "data"]
  | .gfmul => ["x", "y"]
  | .ghash => ["h", "msg"]
  | .aeade => ["nonce", "aad", "pt"]
  | .aeadd => ["nonce", "aad", "ct", "tag"]

/-- The names of the result fields (rule R74). -/
def Op.resultNames : Op → List String
  | .sbox => ["b"]
  | .diff => ["w"]
  | .cxf => ["w"]
  | .ksched => []
  | .encb => ["blk"]
  | .decb => ["blk"]
  | .ksb => ["blk"]
  | .ctrx => ["data"]
  | .gfmul => ["z"]
  | .ghash => ["digest"]
  | .aeade => ["ct", "tag"]
  | .aeadd => ["pt"]

/-- The names of the statuses (60_exceptions.md rule R190). -/
def Status.name : Status → String
  | .ok => "OK"
  | .invalidKeyLength => "InvalidKeyLength"
  | .invalidNonceLength => "InvalidNonceLength"
  | .authenticationFailure => "AuthenticationFailure"
  | .messageTooLong => "MessageTooLong"
  | .notScheduled => "NotScheduled"
  | .illegalCommand => "IllegalCommand"

/-- ` name=value` for each field (rule R80). -/
def fieldsText (names : List String) (fields : List Field) : List Char :=
  (List.zipWith (fun n f => ' ' :: n.toList ++ '=' :: f.text) names fields).flatten

/-- A command as one line of text (rule R80). -/
def Instr.text (i : Instr) : List Char :=
  i.op.mnemonic.toList ++ fieldsText i.op.fieldNames i.fields

/-- A response of an operation as text (rule R80). -/
def responseText (op : Op) (st : Status) (fields : List Field) : List Char :=
  '-' :: '>' :: ' ' :: st.name.toList ++ fieldsText op.resultNames fields

/-- The value of a hexadecimal digit, of either case. -/
def hexValue (c : Char) : Option Nat :=
  if '0' ≤ c ∧ c ≤ '9' then some (c.toNat - 48)
  else if 'a' ≤ c ∧ c ≤ 'f' then some (c.toNat - 87)
  else if 'A' ≤ c ∧ c ≤ 'F' then some (c.toNat - 55)
  else none

/-- Bytes from an even number of hexadecimal digits (00_scope.md rule R6). -/
def bytesOfHex : List Char → Option (List Byte)
  | [] => some []
  | [_] => none
  | a :: b :: cs => do
    let hi ← hexValue a
    let lo ← hexValue b
    let rest ← bytesOfHex cs
    some (BitVec.ofNat 8 (16 * hi + lo) :: rest)

/-- A field of a kind from the bytes its value lists (rule R80). -/
def Field.ofBytes (kind : FieldKind) (bs : List Byte) : Option Field :=
  match kind with
  | .u8 => if bs.length = 1 then some (.u8 (bs.getD 0 0)) else none
  | .w32 => if bs.length = 4 then some (.w32 (be32 bs)) else none
  | .blk => if bs.length = 16 then some (.blk (blockOfBytes bs)) else none
  | .var => some (.var bs)
  | .blks => if bs.length % 16 = 0 then some (.blks (takeBlocks (bs.length / 16) bs)) else none

/-- A field written `name=value` (rule R80). -/
def Field.ofText (kind : FieldKind) (name : String) (token : List Char) : Option Field := do
  let value ← (name.toList ++ ['=']).isPrefixOf? token
  let bs ← bytesOfHex value
  Field.ofBytes kind bs

/-- The fields of a format, one token each, in order. -/
def fieldsOfText : List FieldKind → List String → List (List Char) → Option (List Field)
  | [], [], [] => some []
  | k :: ks, n :: ns, t :: ts => do
    let f ← Field.ofText k n t
    let fs ← fieldsOfText ks ns ts
    some (f :: fs)
  | [], [], _ :: _ => none
  | [], _ :: _, _ => none
  | _ :: _, [], _ => none
  | _ :: _, _ :: _, [] => none

/-- The operation a mnemonic names. -/
def Op.ofMnemonic (m : List Char) : Option Op := Op.all.find? fun op => op.mnemonic.toList == m

/-- The command frame a line stands for (rule R80): text after `;` is a comment, spaces separate; none when the line is no
command. -/
def frameOfText (line : List Char) : Option Frame :=
  match ((line.takeWhile (· != ';')).splitOn ' ').filter (! ·.isEmpty) with
  | [] => none
  | m :: tokens => do
    let op ← Op.ofMnemonic m
    let fields ← fieldsOfText op.format op.fieldNames tokens
    some (op.code :: fields.flatMap Field.encode)

end Sys2Proof
end

