-- ==== Sys2Proof/Tests/Slice0.lean ====
section
/-!
SUPPORT. The model's own tests. Expected values are from spec/: the worked frames of 30_encoding.md section 6 and the vectors of
95_test_vectors.md (section named at each group); only section 1 of that file is the document's own vector, the rest the spec
computed from its rules. Then, for every statement that has hypotheses, a witness that meets them.
-/
namespace Sys2Proof.Tests

open Sys2Proof Sys2Proof.Machine

/-! ### Well-formedness: an ill-formed term for each check -/

theorem var_too_long (n : Nat) (h : 2 ^ 64 ≤ n) : (Field.var (List.replicate n 0)).wellFormed = false := by
  rw [Field.wellFormed, List.length_replicate]
  exact decide_eq_false (by omega)

theorem blks_too_long (n : Nat) (h : 2 ^ 64 ≤ n) : (Field.blks (List.replicate n 0)).wellFormed = false := by
  rw [Field.wellFormed, List.length_replicate]
  exact decide_eq_false (by omega)

theorem var_fits (n : Nat) (h : n < 2 ^ 64) : (Field.var (List.replicate n 0)).wellFormed = true := by
  rw [Field.wellFormed, List.length_replicate]
  exact decide_eq_true h

theorem test_wf_refuses_long_key : (Instr.ksched (List.replicate (2 ^ 64) 0)).wellFormed = false := by
  rw [Instr.wellFormed, Instr.fields, List.all_cons, var_too_long _ le_rfl, Bool.false_and]

theorem test_wf_refuses_long_nonce : (Instr.ksb (List.replicate (2 ^ 64) 0) 0).wellFormed = false := by
  rw [Instr.wellFormed, Instr.fields, List.all_cons, var_too_long _ le_rfl, Bool.false_and]

theorem test_wf_refuses_long_data : (Instr.ctrx [] (List.replicate (2 ^ 64) 0)).wellFormed = false := by
  rw [Instr.wellFormed, Instr.fields, List.all_cons, List.all_cons, var_too_long _ le_rfl, Bool.false_and, Bool.and_false]

theorem test_wf_refuses_long_message : (Instr.ghash 0 (List.replicate (2 ^ 64) 0)).wellFormed = false := by
  rw [Instr.wellFormed, Instr.fields, List.all_cons, List.all_cons, blks_too_long _ le_rfl, Bool.false_and, Bool.and_false]

theorem test_wf_refuses_long_aad : (Instr.aeade [] (List.replicate (2 ^ 64) 0) []).wellFormed = false := by
  rw [Instr.wellFormed, Instr.fields, List.all_cons, List.all_cons, var_too_long _ le_rfl, Bool.false_and, Bool.and_false]

theorem test_wf_refuses_long_ciphertext : (Instr.aeadd [] [] (List.replicate (2 ^ 64) 0) 0).wellFormed = false := by
  rw [Instr.wellFormed, Instr.fields, List.all_cons, List.all_cons, List.all_cons, var_too_long _ le_rfl, Bool.false_and,
    Bool.and_false, Bool.and_false]

theorem test_wf_takes_longest_key : (Instr.ksched (List.replicate (2 ^ 64 - 1) 0)).wellFormed = true := by
  rw [Instr.wellFormed, Instr.fields, List.all_cons, var_fits _ (by decide), List.all_nil, Bool.true_and]

/-! ### Decoding: the worked frames of 30_encoding.md section 6, byte by byte -/

theorem test_decode_sbox :
    decode ([0x01, 0xef]) =
      .ok (.sbox 0xef) := by decide

theorem test_decode_diff :
    decode ([0x02, 0x00, 0x00, 0x00, 0x01]) =
      .ok (.diff 0x00000001) := by decide

theorem test_decode_cxf :
    decode ([0x03, 0xf0, 0x02, 0xc3, 0x9e]) =
      .ok (.cxf 0xf002c39e) := by decide

theorem test_decode_ksched :
    decode ([0x10] ++ [0x00, 0x00, 0x00, 0x00, 0x00, 0x00, 0x00, 0x10] ++ [0x01, 0x23, 0x45, 0x67, 0x89, 0xab, 0xcd, 0xef, 0xfe, 0xdc, 0xba, 0x98, 0x76, 0x54, 0x32, 0x10]) =
      .ok (.ksched [0x01, 0x23, 0x45, 0x67, 0x89, 0xab, 0xcd, 0xef, 0xfe, 0xdc, 0xba, 0x98, 0x76, 0x54, 0x32, 0x10]) := by decide

theorem test_decode_encb :
    decode ([0x20] ++ [0x01, 0x23, 0x45, 0x67, 0x89, 0xab, 0xcd, 0xef, 0xfe, 0xdc, 0xba, 0x98, 0x76, 0x54, 0x32, 0x10]) =
      .ok (.encb 0x0123456789abcdeffedcba9876543210) := by decide

theorem test_decode_decb :
    decode ([0x21] ++ [0x68, 0x1e, 0xdf, 0x34, 0xd2, 0x06, 0x96, 0x5e, 0x86, 0xb3, 0xe9, 0x4f, 0x53, 0x6e, 0x42, 0x46]) =
      .ok (.decb 0x681edf34d206965e86b3e94f536e4246) := by decide

theorem test_decode_ksb :
    decode ([0x30] ++ [0x00, 0x00, 0x00, 0x00, 0x00, 0x00, 0x00, 0x0c] ++ [0x00, 0x00, 0x12, 0x34, 0x56, 0x78, 0x00, 0x00, 0x00, 0x00, 0xab, 0xcd] ++ [0x00, 0x00, 0x00, 0x00]) =
      .ok (.ksb [0x00, 0x00, 0x12, 0x34, 0x56, 0x78, 0x00, 0x00, 0x00, 0x00, 0xab, 0xcd] 0x00000000) := by decide

theorem test_decode_ctrx :
    decode ([0x31] ++ [0x00, 0x00, 0x00, 0x00, 0x00, 0x00, 0x00, 0x0c] ++ [0x00, 0x00, 0x12, 0x34, 0x56, 0x78, 0x00, 0x00, 0x00, 0x00, 0xab, 0xcd] ++ [0x00, 0x00, 0x00, 0x00, 0x00, 0x00, 0x00, 0x03] ++ [0x00, 0x01, 0x02]) =
      .ok (.ctrx [0x00, 0x00, 0x12, 0x34, 0x56, 0x78, 0x00, 0x00, 0x00, 0x00, 0xab, 0xcd] [0x00, 0x01, 0x02]) := by decide

theorem test_decode_gfmul :
    decode ([0x40] ++ [0x00, 0x00, 0x00, 0x00, 0x00, 0x00, 0x00, 0x00, 0x00, 0x00, 0x00, 0x00, 0x00, 0x00, 0x00, 0x01] ++ [0x40, 0x00, 0x00, 0x00, 0x00, 0x00, 0x00, 0x00, 0x00, 0x00, 0x00, 0x00, 0x00, 0x00, 0x00, 0x00]) =
      .ok (.gfmul 0x00000000000000000000000000000001 0x40000000000000000000000000000000) := by decide

theorem test_decode_ghash :
    decode ([0x41] ++ [0x26, 0x77, 0xf4, 0x6b, 0x09, 0xc1, 0x22, 0xcc, 0x97, 0x55, 0x33, 0x10, 0x5b, 0xd4, 0xa2, 0x2a] ++ [0x00, 0x00, 0x00, 0x00, 0x00, 0x00, 0x00, 0x01] ++ [0x80, 0x00, 0x00, 0x00, 0x00, 0x00, 0x00, 0x00, 0x00, 0x00, 0x00, 0x00, 0x00, 0x00, 0x00, 0x00]) =
      .ok (.ghash 0x2677f46b09c122cc975533105bd4a22a [0x80000000000000000000000000000000]) := by decide

theorem test_decode_aeade :
    decode ([0x50] ++ [0x00, 0x00, 0x00, 0x00, 0x00, 0x00, 0x00, 0x0c] ++ [0x00, 0x00, 0x12, 0x34, 0x56, 0x78, 0x00, 0x00, 0x00, 0x00, 0xab, 0xcd] ++ [0x00, 0x00, 0x00, 0x00, 0x00, 0x00, 0x00, 0x03] ++ [0x61, 0x62, 0x63] ++ [0x00, 0x00, 0x00, 0x00, 0x00, 0x00, 0x00, 0x05] ++ [0x68, 0x65, 0x6c, 0x6c, 0x6f]) =
      .ok (.aeade [0x00, 0x00, 0x12, 0x34, 0x56, 0x78, 0x00, 0x00, 0x00, 0x00, 0xab, 0xcd] [0x61, 0x62, 0x63] [0x68, 0x65, 0x6c, 0x6c, 0x6f]) := by decide

theorem test_decode_aeadd :
    decode ([0x51] ++ [0x00, 0x00, 0x00, 0x00, 0x00, 0x00, 0x00, 0x0c] ++ [0x00, 0x00, 0x12, 0x34, 0x56, 0x78, 0x00, 0x00, 0x00, 0x00, 0xab, 0xcd] ++ [0x00, 0x00, 0x00, 0x00, 0x00, 0x00, 0x00, 0x03] ++ [0x61, 0x62, 0x63] ++ [0x00, 0x00, 0x00, 0x00, 0x00, 0x00, 0x00, 0x05] ++ [0x3c, 0x94, 0x3b, 0xc3, 0x5d] ++ [0x45, 0xa0, 0xc4, 0xfa, 0xbf, 0x1b, 0xd0, 0xb9, 0xf7, 0x00, 0x1b, 0xc8, 0xe6, 0xcc, 0xcb, 0xff]) =
      .ok (.aeadd [0x00, 0x00, 0x12, 0x34, 0x56, 0x78, 0x00, 0x00, 0x00, 0x00, 0xab, 0xcd] [0x61, 0x62, 0x63] [0x3c, 0x94, 0x3b, 0xc3, 0x5d] 0x45a0c4fabf1bd0b9f7001bc8e6cccbff) := by decide

/-! ### Decoding: frames that are refused (95_test_vectors.md section 9.1) -/

theorem test_decode_empty : decode [] = .error .emptyFrame := by decide

theorem test_decode_reserved : decode [0x11, 0x01, 0x23] = .error .reservedOpcode := by decide

theorem test_decode_missing_operand : decode [0x01] = .error .truncated := by decide

theorem test_decode_trailing : decode [0x01, 0xef, 0x00] = .error .trailingBytes := by decide

theorem test_decode_prefix_too_large :
    decode ([0x10] ++ [0xff, 0xff, 0xff, 0xff, 0xff, 0xff, 0xff, 0xff] ++ [0x01, 0x23]) = .error .truncated := by decide

theorem test_decode_block_missing :
    decode ([0x41] ++ zeros 16 ++ [0x00, 0x00, 0x00, 0x00, 0x00, 0x00, 0x00, 0x02] ++ zeros 16) = .error .truncated := by
  decide

theorem test_decode_block_too_many : decode ([0x41] ++ zeros 16 ++ zeros 8 ++ zeros 16) = .error .trailingBytes := by decide

/-! ### Table rows: the twelve rows decode, with operand bytes of zero, and run first after reset -/

theorem test_table_rows : [0x01, 0x02, 0x03, 0x10, 0x20, 0x21, 0x30, 0x31, 0x40, 0x41, 0x50, 0x51].map (decodeTableWord 8) =
    [some (.sbox 0), some (.diff 0), some (.cxf 0), some (.ksched []), some (.encb 0), some (.decb 0),
     some (.ksb [] 0), some (.ctrx [] []), some (.gfmul 0 0), some (.ghash 0 []), some (.aeade [] [] []),
     some (.aeadd [] [] [] 0)] := by decide

theorem test_table_reserved : decodeTableWord 8 0x11 = none := by decide

theorem test_table_step : step (State.reset.withFetchWord 8 0x01) = exec (.sbox 0) State.reset := rfl

/-! ### One step each -/

/-- The last response after an answer. -/
def lastResponse : Answer → Option Frame
  | .next t => t.responses.getLast?
  | .fault _ => none
  | .refused _ => none

/-- Reset, then the key of 95_test_vectors.md installed (its `KATKEY`). -/
def katContext : KeyContext := contextOfKey 0x0123456789abcdeffedcba9876543210

def katState : State := { State.reset with keyCtx := some katContext }

/-- The nonce `N1` of 95_test_vectors.md. -/
def nonce1 : List Byte := [0x00, 0x00, 0x12, 0x34, 0x56, 0x78, 0x00, 0x00, 0x00, 0x00, 0xab, 0xcd]

-- section 3.1
theorem test_sbox : lastResponse (exec (.sbox 0xef) State.reset) = some [0x00, 0x84] := by decide

-- section 3.2
theorem test_diff : lastResponse (exec (.diff 0x80000000) State.reset) = some [0x00, 0x80, 0x82, 0x02, 0x02] := by decide

-- section 3.2
theorem test_cxf : lastResponse (exec (.cxf 0x00000071) State.reset) = some [0x00, 0x8e, 0x00, 0x00, 0xd5] := by decide

-- sections 1.1 and 4.1
theorem test_ksched_keys : (expandKey 0x0123456789abcdeffedcba9876543210).toList.take 2 = [0xf12186f9, 0x41662b61] ∧
    (expandKey 0x0123456789abcdeffedcba9876543210).toList.drop 31 = [0x9124a012] ∧
    (contextOfKey 0x0123456789abcdeffedcba9876543210).h = 0x2677f46b09c122cc975533105bd4a22a := by decide +kernel

-- section 4.4
theorem test_ksched_length : exec (.ksched (zeros 15)) katState = raise .invalidKeyLength katState := by rfl

-- section 1: the document's own vector
theorem test_encb : lastResponse (exec (.encb 0x0123456789abcdeffedcba9876543210) katState) =
    some (0x00 :: bytesOfBlock 0x681edf34d206965e86b3e94f536e4246) := by decide +kernel

-- section 9.2, step 1
theorem test_encb_not_scheduled : lastResponse (exec (.encb 0) State.reset) = some [0x05] := by decide

-- section 5
theorem test_decb : lastResponse (exec (.decb 0x0123456789abcdeffedcba9876543210) katState) =
    some (0x00 :: bytesOfBlock 0x9338375e82eec1cbbef65edf8757a631) := by decide +kernel

-- section 6.1
theorem test_ksb : lastResponse (exec (.ksb nonce1 0xffffffff) katState) =
    some (0x00 :: bytesOfBlock 0x18a6f73f40ae393e8d7a98b0896d7123) := by decide +kernel

-- section 6.3
theorem test_ksb_nonce : lastResponse (exec (.ksb (zeros 11) 0) katState) = some [0x02] := by decide +kernel

-- section 6.2, n = 17
theorem test_ctrx : lastResponse (exec (.ctrx nonce1 ((List.range 17).map (BitVec.ofNat 8 ·))) katState) =
    some (0x00 :: (be64 17 ++ bytesOfBlock 0x54f055ac36714dbf33b780adfd5a857e ++ [0xad])) := by decide +kernel

-- section 7.1
theorem test_gfmul : lastResponse (exec (.gfmul 1 1) State.reset) =
    some (0x00 :: bytesOfBlock 0xe6080000000000000000000000000003) := by decide +kernel

-- section 7.2
theorem test_ghash : lastResponse (exec (.ghash 0x2677f46b09c122cc975533105bd4a22a
      [0x0388dace60b6a392f328c2b971b2fe78, 0x66e94bd4ef8a2c3b884cfa59ca342b2e]) State.reset) =
    some (0x00 :: bytesOfBlock 0xca941a8bd388105501c226cbf165f2dd) := by decide +kernel

-- section 8.1, vector V5
theorem test_aeade : lastResponse (exec (.aeade nonce1 [0x61, 0x62, 0x63] [0x68, 0x65, 0x6c, 0x6c, 0x6f]) katState) =
    some (0x00 :: (be64 5 ++ [0x3c, 0x94, 0x3b, 0xc3, 0x5d] ++ bytesOfBlock 0x45a0c4fabf1bd0b9f7001bc8e6cccbff)) := by
  decide +kernel

-- section 8.1, vector V3: one plaintext byte, no AAD
theorem test_aeade_one_byte : lastResponse (exec (.aeade nonce1 [] [0x00]) katState) =
    some (0x00 :: (be64 1 ++ [0x54] ++ bytesOfBlock 0xaec533f1f4637fc5479c96110aaaf232)) := by decide +kernel

-- section 9.3, step 3
theorem test_aeadd : lastResponse (exec (.aeadd nonce1 [0x61, 0x62, 0x63] [0x3c, 0x94, 0x3b, 0xc3, 0x5d]
      0x45a0c4fabf1bd0b9f7001bc8e6cccbff) katState) = some (0x00 :: (be64 5 ++ [0x68, 0x65, 0x6c, 0x6c, 0x6f])) := by
  decide +kernel

-- section 9.3, step 5
theorem test_aeadd_bad_tag : lastResponse (exec (.aeadd nonce1 [0x61, 0x62, 0x63] [0x3c, 0x94, 0x3b, 0xc3, 0x5d]
      0x45a0c4fabf1bd0b9f7001bc8e6cccbfe) katState) = some [0x03] := by decide +kernel

-- section 9.1
theorem test_step_illegal : step { katState with inputs := [.command [0x04, 0x00]] } = raise .illegalCommand katState := by
  rfl

-- the text forms of 30_encoding.md rule R80
theorem test_text_encb : (Instr.encb 0x0123456789abcdeffedcba9876543210).text =
    "ENCB blk=0123456789abcdeffedcba9876543210".toList := by decide

theorem test_text_response : responseText .encb .ok [.blk 0x681edf34d206965e86b3e94f536e4246] =
    "-> OK blk=681edf34d206965e86b3e94f536e4246".toList := by decide

theorem test_text_read :
    frameOfText "KSB nonce=00001234567800000000abcd ctr=00000000 ; a comment".toList = some (encode (.ksb nonce1 0)) ∧
    frameOfText "CTRX nonce= data=000102".toList = some (encode (.ctrx [] [0x00, 0x01, 0x02])) ∧
    frameOfText "ENCB blk=0123".toList = none := by decide +kernel

theorem test_text_read_blocks : frameOfText
    "GHASH h=2677f46b09c122cc975533105bd4a22a msg=80000000000000000000000000000000".toList =
      some (encode (.ghash 0x2677f46b09c122cc975533105bd4a22a [0x80000000000000000000000000000000])) := by decide +kernel

/-! ### Witnesses of the statements' hypotheses, named after the statements -/

theorem witness_DecodeInvertsEncode :
    (Instr.aeadd nonce1 [0x61] (List.replicate (2 ^ 64 - 1) 0) 0).wellFormed = true := by
  rw [Instr.wellFormed, Instr.fields, List.all_cons, List.all_cons, List.all_cons, var_fits _ (by decide)]
  decide

theorem witness_EncodeInvertsDecode : decode [0x01, 0xef] = .ok (.sbox 0xef) := by decide

theorem witness_ReservedOpcodesAreIllegal : ∀ b ∈ ([0x00, 0x04, 0x11, 0x52, 0xff] : List Byte),
    b ∉ ([0x01, 0x02, 0x03, 0x10, 0x20, 0x21, 0x30, 0x31, 0x40, 0x41, 0x50, 0x51] : List Byte) := by decide

theorem witness_IllegalFrames_truncated :
    (Instr.sbox 0).wellFormed = true ∧ 1 < (encode (.sbox 0)).length ∧ 0 < (encode (.sbox 0)).length := by decide

theorem witness_IllegalFrames_length_prefix :
    (Instr.ksb [] 0).wellFormed = true ∧ (Instr.ksb [] 0).fields = [] ++ .var [] :: [.w32 0] ∧
    (2 ^ 64 - 1 : Nat) < 2 ^ 64 ∧ ([] : List Byte).length < 2 ^ 64 - 1 ∧ ([] : List Byte).length < 1 := by decide

theorem witness_IllegalFrames_block_count :
    (Instr.ghash 0 []).wellFormed = true ∧ (Instr.ghash 0 []).fields = [.blk 0] ++ .blks [] :: [] ∧
    (2 ^ 64 - 1 : Nat) < 2 ^ 64 ∧ (zeros 15).length < 16 * 1 := by decide

theorem witness_IllegalFrames_trailing : (Instr.ksched []).wellFormed = true := by decide

theorem witness_IllegalFrames_key : ∀ n ∈ [0, 15, 17, 2 ^ 64 - 1],
    (List.replicate n (0 : Byte)).length < 2 ^ 64 ∧ (List.replicate n (0 : Byte)).length ≠ 16 := by
  simp [List.length_replicate]

theorem witness_IllegalFrames_nonce : (Instr.ksb (zeros 11) 0).wellFormed = true ∧
    (Instr.ksb (zeros 11) 0).nonce? = some (zeros 11) ∧ (zeros 11).length ≠ 12 ∧ katState.keyCtx ≠ none := by
  refine ⟨by decide, rfl, by decide, by simp [katState]⟩

theorem witness_StepRunsTheDecodedCommand : decode [0x02, 0x00, 0x00, 0x00, 0x01] = .ok (.diff 1) := by decide

theorem witness_NothingPresentedNothingExecuted : State.reset.inputs = [] := rfl

/-- A KSCHED that fails has been taken, an ENCB is next, and a KSCHED that succeeds follows. -/
theorem witness_KeyedCommandsBeforeKsched :
    let frames : List Frame := [0x10 :: zeros 8, 0x20 :: zeros 16, 0x10 :: be64 16 ++ zeros 16]
    (∀ G ∈ frames.take 1, ∀ key : List Byte, decode G = .ok (.ksched key) → key.length ≠ 16) ∧
    Sys2Proof.core.run 1 { State.reset with inputs := frames.map .command } =
      .next { State.reset with inputs := (frames.drop 1).map .command, responses := [[0x01]] } ∧
    decode (0x20 :: zeros 16) = .ok (.encb 0) ∧ (Instr.encb 0).op.keyed = true ∧
    decode (0x10 :: be64 16 ++ zeros 16) = .ok (.ksched (zeros 16)) := by
  have d : decode (0x10 :: zeros 8) = .ok (.ksched []) := by decide
  refine ⟨fun G hG key h => ?_, rfl, by decide, rfl, by decide⟩
  cases List.mem_singleton.mp hG
  cases d.symm.trans h
  decide

theorem witness_ResetAloneClearsTheKeyContext :
    step { katState with inputs := [.reset] } = .next State.reset ∧ katState.sched = true ∧
    State.reset.sched = false := ⟨rfl, rfl, rfl⟩

theorem witness_OnlyKschedWritesTheKeyContext :
    exec (.sbox 0) katState = .next (katState.respond [0x00, 0xd6]) ∧
    exec (.ksched (zeros 16)) katState =
      .next ((katState.install (contextOfKey (blockOfBytes (zeros 16)))).respond [0x00]) := ⟨rfl, rfl⟩

theorem witness_ErrorsLeaveNoTrace : step { katState with inputs := [.command [0x00]] } =
    .next (katState.respond [Status.illegalCommand.code]) ∧ Status.illegalCommand ≠ .ok := ⟨rfl, by decide⟩

theorem witness_CommandsAreIdempotent :
    exec (.ksched (zeros 15)) State.reset = .next (State.reset.respond [0x01]) := rfl

theorem witness_EqualContextsAreIndistinguishable :
    katState.keyCtx = { katState with responses := [[0x00]] }.keyCtx := rfl

theorem kat_inv : katState.Inv := by
  refine ⟨?_, by simp [katState]⟩
  intro c h
  cases h
  exact ⟨_, rfl, rfl⟩

theorem witness_StepKeepsContextAndResponsesLegal :
    katState.Inv ∧ step { katState with inputs := [.command [0x01, 0x00]] } = .next (katState.respond [0x00, 0xd6]) :=
  ⟨kat_inv, rfl⟩

theorem witness_HashSubkeyIsEncryptionOfZero : katState.Inv ∧ katState.keyCtx = some katContext := ⟨kat_inv, rfl⟩

theorem witness_FirstCauseIsReported : decode [0x00] = .error .reservedOpcode ∧
    decode ([0x10] ++ be64 1 ++ [0x00]) = .ok (.ksched [0x00]) ∧
    (Instr.encb 0).op.keyed = true ∧ State.reset.keyCtx = none ∧
    (Instr.ctrx [] []).nonce? = some [] ∧
    (∀ D, (Instr.ctrx [] D).data? = some D) ∧ 2 ^ 36 - 32 < (List.replicate (2 ^ 36 - 31) (0 : Byte)).length := by
  refine ⟨by decide, by decide, rfl, rfl, rfl, fun _ => rfl, ?_⟩
  rw [List.length_replicate]
  omega

theorem witness_InvalidKeyLength : (zeros 15).length ≠ 16 ∧ (zeros 17).length ≠ 16 ∧ ([] : List Byte).length ≠ 16 ∧
    exec (.ksched (zeros 17)) katState = .next (katState.respond [0x01]) := ⟨by decide, by decide, by decide, rfl⟩

theorem witness_InvalidNonceLength : katState.keyCtx ≠ none ∧
    (Instr.aeade (zeros 13) [] []).nonce? = some (zeros 13) ∧ (zeros 13).length ≠ 12 ∧
    exec (.aeade (zeros 13) [] []) katState = .next (katState.respond [0x02]) :=
  ⟨by simp [katState], rfl, by decide, rfl⟩

/-- At the bound and one above it (rule R194). -/
theorem witness_MessageTooLong :
    ¬ 68719476704 < (List.replicate 68719476704 (0 : Byte)).length ∧
    68719476704 < (List.replicate 68719476705 (0 : Byte)).length ∧
    ¬ 2305843009213693951 < (List.replicate 2305843009213693951 (0 : Byte)).length ∧
    2305843009213693951 < (List.replicate 2305843009213693952 (0 : Byte)).length := by
  rw [List.length_replicate, List.length_replicate, List.length_replicate, List.length_replicate]
  omega

theorem witness_KschedInstallsTheScheduleOfTheKey : (zeros 16).length = 16 := by decide

theorem witness_EncbRunsThirtyTwoRounds : (zeros 16).length = 16 ∧ katState.keyCtx = some katContext := ⟨by decide, rfl⟩

theorem witness_DecbRunsTheRoundsWithReversedKeys : (zeros 16).length = 16 ∧ katState.keyCtx = some katContext :=
  ⟨by decide, rfl⟩

theorem witness_KsbEnciphersTheCounterBlock : nonce1.length = 12 ∧ katState.keyCtx = some katContext := ⟨rfl, rfl⟩

/-- The longest data and AAD accepted (rule R194), for every statement with these bounds. -/
theorem witness_lengths : nonce1.length = 12 ∧ (List.replicate 68719476704 (0 : Byte)).length ≤ 68719476704 ∧
    (List.replicate 2305843009213693951 (0 : Byte)).length ≤ 2305843009213693951 ∧
    katState.keyCtx = some katContext := by
  rw [List.length_replicate, List.length_replicate]
  exact ⟨rfl, le_rfl, le_rfl, rfl⟩

theorem witness_CtrxXorsTheKeystream : nonce1.length = 12 ∧ ([0x00] : List Byte).length ≤ 68719476704 ∧
    katState.keyCtx = some katContext ∧ ([0x00] : List Byte)[0]? = some 0x00 := ⟨rfl, by simp, rfl, rfl⟩

theorem witness_CounterModeLaws :
    (([0x01, 0x02] : List Byte).drop (16 * 0)).take 16 = (([0x01, 0x02] : List Byte).drop (16 * 0)).take 16 := rfl

theorem witness_DataCountersNeverWrap : 68719476704 ≤ 68719476704 ∧ 4294967293 < ceil16 68719476704 ∧
    0 < ceil16 68719476704 := by decide

theorem witness_GfMulHasNoZeroDivisors : gfMul 0 0x80000000000000000000000000000000 = 0 := by decide +kernel

theorem witness_AeadeComposesTheComponents : nonce1.length = 12 ∧ ([] : List Byte).length ≤ 68719476704 ∧
    ([0x00] : List Byte).length ≤ 2305843009213693951 ∧ katState.keyCtx = some katContext := ⟨rfl, by simp, by simp, rfl⟩

/-- Both cases: the tag of vector V1 (95_test_vectors.md section 8.1), and another one. -/
theorem witness_AeaddAnswersExactlyWhenTheTagMatches : nonce1.length = 12 ∧ katState.keyCtx = some katContext ∧
    0x029aed46d6f2cf9deca528627f3ce03b = aeadTag katContext.rk katContext.h (nonceOfBytes nonce1) [] [] ∧
    0x029aed46d6f2cf9deca528627f3ce03a ≠ aeadTag katContext.rk katContext.h (nonceOfBytes nonce1) [] [] :=
  ⟨rfl, rfl, by decide +kernel, by decide +kernel⟩

theorem witness_AeadRoundTrip : nonce1.length = 12 ∧ katState.keyCtx = some katContext ∧
    { State.reset with keyCtx := some katContext, responses := [[0x00]] }.keyCtx = some katContext := ⟨rfl, rfl, rfl⟩

theorem witness_WrongTagsFail : nonce1.length = 12 ∧ katState.keyCtx = some katContext ∧
    lastResponse (exec (.aeadd nonce1 [] [] 0x029aed46d6f2cf9deca528627f3ce03b) katState) = some (0x00 :: be64 0) ∧
    (0 : Block) ≠ 0x029aed46d6f2cf9deca528627f3ce03b := ⟨rfl, rfl, by decide +kernel, by decide⟩

/-- A context whose `H` is zero (93_implementation_defined.md U19: fully defined). -/
theorem witness_WrongTagsFail_zero_subkey : { katContext with h := 0 }.h = 0 := rfl

theorem witness_OneBlockChangesAreDetected : katContext.h ≠ 0 ∧
    ([0x01] : List Byte).length = ([0x00] : List Byte).length ∧ ([0x01] : List Byte) ≠ [0x00] ∧
    ∀ i : Nat, i / 16 ≠ 0 → ([0x01] : List Byte)[i]? = ([0x00] : List Byte)[i]? := by
  refine ⟨by decide +kernel, rfl, by decide, ?_⟩
  intro i h
  rw [List.getElem?_eq_none (by simp; omega), List.getElem?_eq_none (by simp; omega)]

theorem witness_EmptyInputsAreValid : nonce1.length = 12 ∧ katState.keyCtx = some katContext := ⟨rfl, rfl⟩

theorem witness_NonceReuseIsNotDetected : nonce1.length = 12 ∧ ([0x68] : List Byte).length ≤ 68719476704 ∧
    ([0x77] : List Byte).length ≤ 68719476704 ∧ katState.keyCtx = some katContext := ⟨rfl, by simp, by simp, rfl⟩

theorem witness_UnkeyedCommandsIgnoreTheContext : (Instr.sbox 0).op ∈ [Op.sbox, .diff, .cxf, .gfmul, .ghash] ∧
    (Instr.ghash 0 []).op ∈ [Op.sbox, .diff, .cxf, .gfmul, .ghash] := by decide

theorem witness_DocumentFormsExpandToCommands : (zeros 16).length = 16 ∧ nonce1.length = 12 ∧
    ([] : List Byte).length ≤ 68719476704 ∧ ([] : List Byte).length ≤ 2305843009213693951 ∧
    ([1] : List Block).length < 2 ^ 64 := by decide

end Sys2Proof.Tests
end

section
/-!
PROOFS. The key context along steps and runs (10_state.md rules R29, R41): which commands write it, and that it stays absent from
reset until a KSCHED with a 16-byte key is taken.
-/
namespace Sys2Proof.Machine

/-- What KSCHED computes belongs to one key (rules R112 to R114). -/
theorem contextOfKey_ofOneKey (key : Block) : (contextOfKey key).ofOneKey := ⟨key, rfl, rfl⟩

/-- KSCHED with a 16-byte key installs the context of that key and answers `OK` (rule R113). -/
theorem exec_ksched_of_length {key : List Byte} (h : key.length = 16) (s : State) :
    exec (.ksched key) s = .next ((s.install (contextOfKey (blockOfBytes key))).respond [0x00]) :=
  withKey_of_length h s fun k => complete [] (s.install (contextOfKey k))

/-- Settles O12: a KSCHED with a 16-byte key installs a context, and every other command only adds its response. -/
theorem onlyKschedWritesTheKeyContext : Obligations.OnlyKschedWritesTheKeyContext := by
  intro i s t h
  by_cases hk : ∃ key, i = .ksched key ∧ key.length = 16
  · obtain ⟨key, rfl, len⟩ := hk
    cases (exec_ksched_of_length len s).symm.trans h
    refine ⟨fun ne => absurd rfl ne, fun k e => ?_, rfl, _, rfl⟩
    cases e
    exact .inr ⟨len, _, rfl, contextOfKey_ofOneKey _⟩
  · have other : ∀ key, i = .ksched key → key.length ≠ 16 := fun key e len => hk ⟨key, e, len⟩
    obtain ⟨R, e⟩ := exec_of_not_ksched (s := s) other
    cases e.symm.trans h
    exact ⟨fun _ => rfl, fun key e => .inl ⟨other key e, rfl⟩, rfl, R, rfl⟩

/-- A frame that is not the frame of a KSCHED with a 16-byte key. -/
def InstallsNoKey (F : Frame) : Prop := ∀ key, decode F = .ok (.ksched key) → key.length ≠ 16

/-- A frame that decodes is executed as its command (rules R21, R76). -/
theorem step_of_decode_ok {s : State} {F : Frame} {rest : List HostInput} {i : Instr}
    (hin : s.inputs = .command F :: rest) (hd : decode F = .ok i) : step s = exec i { s with inputs := rest } := by
  simp [step, hin, runFrame, hd]

/-- A frame that does not decode is answered `IllegalCommand` (rule R77). -/
theorem step_of_decode_error {s : State} {F : Frame} {rest : List HostInput} {e : Illegal}
    (hin : s.inputs = .command F :: rest) (hd : decode F = .error e) :
    step s = raise .illegalCommand { s with inputs := rest } := by
  simp [step, hin, runFrame, hd, answerIllegal]

/-- Taking a frame that installs no key adds one response and leaves the key context. -/
theorem step_of_installsNoKey {s : State} {F : Frame} {rest : List HostInput}
    (hin : s.inputs = .command F :: rest) (hF : InstallsNoKey F) :
    ∃ R : Frame, step s = .next ({ s with inputs := rest }.respond R) := by
  cases hd : decode F with
  | error e => exact ⟨_, step_of_decode_error hin hd⟩
  | ok i =>
    rw [step_of_decode_ok hin hd]
    exact exec_of_not_ksched fun key e => hF key (e ▸ hd)

/-- A run over frames of which those taken install no key leaves the key context as it was. -/
theorem core_run_keyCtx {frames : List Frame} {n : Nat} {s t : State} (hin : s.inputs = frames.map .command)
    (hF : ∀ G ∈ frames.take n, InstallsNoKey G) (h : Sys2Proof.core.run n s = .next t) : t.keyCtx = s.keyCtx := by
  induction n generalizing frames s with
  | zero =>
    cases h
    rfl
  | succ n ih =>
    cases frames with
    | nil =>
      have idles : step s = .next s := by simp [step, hin, idle]
      rw [core_run_succ idles] at h
      exact ih hin (by simp) h
    | cons F frames =>
      rw [List.take_succ_cons, List.forall_mem_cons] at hF
      obtain ⟨R, e⟩ := step_of_installsNoKey hin hF.1
      rw [core_run_succ e] at h
      exact ih (s := { s with inputs := frames.map .command }.respond R) rfl hF.2 h

/-- Settles O8: the run has left the key context absent, as it is after reset, so a keyed command raises `NotScheduled`. -/
theorem keyedCommandsBeforeKschedAreNotScheduled : Obligations.KeyedCommandsBeforeKschedAreNotScheduled := by
  refine ⟨rfl, fun frames n t hF hrun => ?_⟩
  have noCtx : t.keyCtx = none := core_run_keyCtx rfl hF hrun
  refine ⟨(sched_eq_false_iff t).mpr noCtx, fun F rest i hin hd hk => ?_⟩
  calc step t = exec i { t with inputs := rest } := step_of_decode_ok hin hd
    _ = raise .notScheduled { t with inputs := rest } := exec_keyed_of_no_context noCtx hk

end Sys2Proof.Machine
end

section
/-!
PROOFS. Counter mode byte by byte (20_memory.md rule R62, 43_ctr_keystream.md rules R137, R139): which keystream byte meets which
byte of the data, and what CTRX answers.
-/
namespace Sys2Proof.Machine

theorem getElem?_xorBytes {a b : List Byte} {i : Nat} {x y : Byte} (ha : a[i]? = some x) (hb : b[i]? = some y) :
    (xorBytes a b)[i]? = some (x ^^^ y) := by
  simp [xorBytes, List.getElem?_zipWith, ha, hb]

/-- Byte `i` from block index `j` on meets byte `i mod 16` of the keystream block of index `j + i / 16`: by induction on the
number of blocks, the byte lying in the first block or in the later ones. -/
theorem getElem?_ctrXorBlocks (rk : Vector Word 32) (N : Nonce) {m j i : Nat} {D : List Byte} {d : Byte} (hm : i < 16 * m)
    (hd : D[i]? = some d) : (ctrXorBlocks rk N m j D)[i]? =
      some (d ^^^ Block.byte (ksBlock rk N (BitVec.ofNat 32 (dataCounter (j + i / 16)))) (i % 16)) := by
  induction m generalizing i j D with
  | zero => omega
  | succ m ih =>
    rw [ctrXorBlocks]
    obtain ⟨hi, -⟩ := List.getElem?_eq_some_iff.mp hd
    have len : (xorBytes (D.take 16) (bytesOfBlock (ksBlock rk N (BitVec.ofNat 32 (dataCounter j))))).length =
        min 16 D.length := by
      simp [xorBytes]
    by_cases first : i < 16
    · have hd' : (D.take 16)[i]? = some d := by rw [List.getElem?_take_of_lt first, hd]
      rw [List.getElem?_append_left (by omega), getElem?_xorBytes hd' (getElem?_bytesOfBlock _ i first),
        Nat.div_eq_of_lt first, Nat.mod_eq_of_lt first, Nat.add_zero]
    · have hd' : (D.drop 16)[i - 16]? = some d := by rw [List.getElem?_drop, Nat.add_sub_of_le (by omega), hd]
      have block : j + 1 + (i - 16) / 16 = j + i / 16 := by omega
      have byte : (i - 16) % 16 = i % 16 := by omega
      rw [List.getElem?_append_right (by omega), len, Nat.min_eq_left (by omega), ih (by omega) hd', block, byte]

theorem ctrXor_length (rk : Vector Word 32) (N : Nonce) (D : List Byte) : (ctrXor rk N D).length = D.length :=
  ctrXorBlocks_length rk N _ 0 D (le_ceil16 _)

/-- Output byte `i` is the data byte XORed with byte `i mod 16` of the enciphered counter block `1 + i / 16` (rule R62). -/
theorem getElem?_ctrXor (rk : Vector Word 32) (N : List Byte) {D : List Byte} {i : Nat} {d : Byte} (hd : D[i]? = some d) :
    (ctrXor rk (nonceOfBytes N) D)[i]? =
      some (d ^^^ Block.byte (encWith rk (blockOfBytes (N ++ bytes32 (BitVec.ofNat 32 (1 + i / 16))))) (i % 16)) := by
  obtain ⟨hi, -⟩ := List.getElem?_eq_some_iff.mp hd
  have inBlocks : i < 16 * ceil16 D.length := hi.trans_le (le_ceil16 _)
  rw [ctrXor, getElem?_ctrXorBlocks rk _ inBlocks hd, Nat.zero_add, dataCounter_eq, ksBlock, ctrBlock_nonceOfBytes]

/-- CTRX when no cause of an error applies (rule R139): the status `OK` and the data under the keystream as a `var` field. -/
theorem exec_ctrx_of_ok {N D : List Byte} {s : State} {c : KeyContext} (hN : N.length = 12)
    (hD : D.length ≤ 2 ^ 36 - 32) (hs : s.keyCtx = some c) :
    exec (.ctrx N D) s = .next (s.respond (okFrame [.var (ctrXor c.rk (nonceOfBytes N) D)])) :=
  calc exec (.ctrx N D) s = execCtrx N D s := rfl
    _ = withinBounds D [] s (complete [.var (ctrXor c.rk (nonceOfBytes N) D)] s) := by
      rw [execCtrx, keyed_some hs, withNonce_of_length hN]
    _ = _ := withinBounds_of_le hD (by simp) s _

/-- Settles O33: the output is `ctrXor` of the data, whose length and bytes the lemmas above give. -/
theorem ctrxXorsTheKeystream : Obligations.CtrxXorsTheKeystream := by
  intro N D s c hN hD hs
  refine ⟨ctrXor c.rk (nonceOfBytes N) D, ctrXor_length .., fun i d hd => getElem?_ctrXor c.rk N hd, ?_⟩
  rw [exec_ctrx_of_ok hN (by omega) hs]
  simp [State.respond, Field.encode, ctrXor_length]

end Sys2Proof.Machine
end

section
/-!
PROOFS. Response frames (30_encoding.md rules R71, R74): every command in every state answers with one response of its format and
of its length, and so does a step with every frame.
-/
namespace Sys2Proof.Machine

/-- If `a` is an `OK` response added to state `s`, the response frame has `n` bytes. -/
def OkLength (n : Nat) (s : State) (a : Answer) : Prop :=
  ∀ fields, a = complete fields s → (okFrame fields).length = n

section
variable {n : Nat} {s : State}

theorem respond_injective {R R' : Frame} (h : s.respond R = s.respond R') : R = R' := by
  simpa using congrArg State.responses h

theorem code_eq_zero_iff {st : Status} : st.code = 0x00 ↔ st = .ok := by
  cases st <;> decide

/-- An error status is no `OK` response. -/
theorem okLength_raise {st : Status} (h : st ≠ .ok) : OkLength n s (raise st s) := by
  intro fields e
  have frames : [st.code] = okFrame fields := respond_injective (Host.Outcome.next.inj e)
  exact absurd (code_eq_zero_iff.mp (List.head_eq_of_cons_eq frames)) h

theorem okLength_complete {fields : List Field} (h : (okFrame fields).length = n) : OkLength n s (complete fields s) := by
  intro fields' e
  rwa [← respond_injective (Host.Outcome.next.inj e)]

theorem okLength_keyed {go : KeyContext → Answer} (h : ∀ c, OkLength n s (go c)) : OkLength n s (keyed s go) := by
  obtain ⟨-, e⟩ | ⟨c, -, e⟩ := keyed_cases s go
  · exact e ▸ okLength_raise (by decide)
  · exact e ▸ h c

theorem okLength_withNonce {nonce : List Byte} {go : Nonce → Answer} (h : ∀ N, OkLength n s (go N)) :
    OkLength n s (withNonce nonce s go) := by
  obtain ⟨-, e⟩ | ⟨-, e⟩ := withNonce_cases nonce s go
  · exact e ▸ okLength_raise (by decide)
  · exact e ▸ h _

theorem okLength_withinBounds {data aad : List Byte} {go : Answer} (h : OkLength n s go) :
    OkLength n s (withinBounds data aad s go) := by
  obtain ⟨-, e⟩ | ⟨-, -, e⟩ := withinBounds_cases data aad s go
  · exact e ▸ okLength_raise (by decide)
  · rwa [e]

end

theorem okFrame_blk_length (B : Block) : (okFrame [.blk B]).length = 17 := by
  simp [Field.encode]

theorem okFrame_var_length (bs : List Byte) : (okFrame [.var bs]).length = 9 + bs.length := by
  simp [Field.encode]
  omega

theorem okFrame_var_blk_length (bs : List Byte) (B : Block) : (okFrame [.var bs, .blk B]).length = 25 + bs.length := by
  simp [Field.encode]
  omega

/-- Decryption keeps the length (rule R174). -/
theorem aeadDecrypt_length {rk : Vector Word 32} {Hk : Block} {N : Nonce} {A C P : List Byte} {tag : Block}
    (h : aeadDecrypt rk Hk N A C tag = some P) : P.length = C.length := by
  unfold aeadDecrypt at h
  split at h
  · cases h
    exact ctrXor_length rk N C
  · cases h

/-- What a command completes with has the length rule R74 gives. (KSCHED completes in a state with its context installed.) -/
theorem exec_okLength {i : Instr} (hi : i.op ≠ .ksched) (s : State) : OkLength i.okLength s (exec i s) := by
  cases i with
  | sbox b => exact okLength_complete rfl
  | diff w => exact okLength_complete rfl
  | cxf w => exact okLength_complete rfl
  | ksched key => exact absurd rfl hi
  | encb blk => exact okLength_keyed fun c => okLength_complete (okFrame_blk_length _)
  | decb blk => exact okLength_keyed fun c => okLength_complete (okFrame_blk_length _)
  | ksb nonce ctr =>
    exact okLength_keyed fun c => okLength_withNonce fun N => okLength_complete (okFrame_blk_length _)
  | ctrx nonce data =>
    refine okLength_keyed fun c => okLength_withNonce fun N => okLength_withinBounds (okLength_complete ?_)
    rw [okFrame_var_length, ctrXor_length, Instr.okLength]
  | gfmul x y => exact okLength_complete (okFrame_blk_length _)
  | ghash h msg => exact okLength_complete (okFrame_blk_length _)
  | aeade nonce aad pt =>
    refine okLength_keyed fun c => okLength_withNonce fun N => okLength_withinBounds (okLength_complete ?_)
    rw [okFrame_var_blk_length, aeadEncrypt, ctrXor_length, Instr.okLength]
  | aeadd nonce aad ct tag =>
    refine okLength_keyed fun c => okLength_withNonce fun N => okLength_withinBounds ?_
    cases d : aeadDecrypt c.rk c.h N aad ct tag with
    | none => exact okLength_raise (by decide)
    | some pt =>
      refine okLength_complete ?_
      rw [okFrame_var_length, aeadDecrypt_length d, Instr.okLength]

/-- Settles O11: what a command can answer is `exec_answers`, the length of an `OK` response `exec_okLength`. -/
theorem responsesHaveTheirFormat : Obligations.ResponsesHaveTheirFormat := by
  intro i s
  obtain ⟨st, mem, e⟩ | ⟨fields, kinds, op, e⟩ | ⟨key, rfl, -, e⟩ := exec_answers i s
  · exact ⟨s.keyCtx, [st.code], e, .inl ⟨st, mem, rfl⟩⟩
  · exact ⟨s.keyCtx, okFrame fields, e, .inr ⟨exec_okLength op s fields e, fields, kinds, rfl⟩⟩
  · exact ⟨_, okFrame [], e, .inr ⟨rfl, [], rfl, rfl⟩⟩

theorem ne_ok_of_mem_mayRaise {op : Op} {st : Status} (h : st ∈ op.mayRaise) : st ≠ .ok := by
  rintro rfl
  cases op <;> simp [Op.mayRaise] at h

/-- Settles O10: a frame that does not decode is answered `IllegalCommand`, and any other as its command answers (O11). -/
theorem everyFrameGetsOneResponse : Obligations.EveryFrameGetsOneResponse := by
  intro s F rest
  cases hd : decode F with
  | error e =>
    have raised := step_of_decode_error (s := { s with inputs := .command F :: rest }) rfl hd
    exact ⟨s.keyCtx, _, raised, .inl ⟨.illegalCommand, by decide, rfl⟩⟩
  | ok i =>
    obtain ⟨ctx, R, e, answer⟩ := responsesHaveTheirFormat i { s with inputs := rest }
    refine ⟨ctx, R, (step_of_decode_ok rfl hd).trans e, ?_⟩
    obtain ⟨st, mem, rfl⟩ | ⟨-, fields, kinds, rfl⟩ := answer
    · exact .inl ⟨st, ne_ok_of_mem_mayRaise mem, rfl⟩
    · exact .inr ⟨i, fields, rfl, kinds, rfl⟩

end Sys2Proof.Machine
end

section
/-!
PROOFS. Illegal frames (30_encoding.md rules R76, R77): the decoder accepts exactly the frames of well-formed commands, no such frame
continues another, and every frame that is none of them is answered `IllegalCommand`.
-/
namespace Sys2Proof

/-- The decoder reads a well-formed command's fields back and leaves what follows them (rules R72, R76). -/
theorem readOperands_fields {i : Instr} (h : i.wellFormed = true) (r : List Byte) :
    readOperands i.op (i.fields.flatMap Field.encode ++ r) = .ok (i, r) := by
  cases i <;>
    simp_all [Instr.wellFormed, Field.wellFormed, Instr.op, Instr.fields, Field.encode, readOperands, bind, Except.bind,
      readVar_be64, readBlks_be64]

/-- If `m` reads `bs` as operands of `op` after the fields `before`, what it accepts is what the encoder writes (rule R72): the
command has these fields and well-formed ones that spell `bs` up to the rest. -/
def ReadsAs (op : Op) (before : List Field) (bs : List Byte) (m : Except Illegal (Instr × List Byte)) : Prop :=
  ∀ i r, m = .ok (i, r) → ∃ fields, i.op = op ∧ i.fields = before ++ fields ∧ (∀ f ∈ fields, f.wellFormed = true) ∧
    bs = fields.flatMap Field.encode ++ r

section
variable {op : Op} {before : List Field} {bs : List Byte}

theorem readsAs_end {i : Instr} (hop : i.op = op) (hf : i.fields = before) : ReadsAs op before bs (.ok (i, bs)) := by
  rintro _ _ ⟨⟩
  exact ⟨[], hop, by simp [hf], by simp, by simp⟩

/-- One more field: whatever its reader accepts is the field's encoding, and the rest of the fields are read as they should. -/
theorem readsAs_bind {α : Type} {read : Except Illegal (α × List Byte)} {k : α × List Byte → Except Illegal (Instr × List Byte)}
    (field : α → Field)
    (hread : ∀ v r, read = .ok (v, r) → (field v).wellFormed = true ∧ bs = (field v).encode ++ r)
    (hk : ∀ v r, ReadsAs op (before ++ [field v]) r (k (v, r))) : ReadsAs op before bs (read >>= k) := by
  intro i r h
  cases e : read with
  | error x => simp [e, bind, Except.bind] at h
  | ok p =>
    rw [e] at h
    obtain ⟨fields, hop, hf, wf, hr⟩ := hk p.1 p.2 i r h
    obtain ⟨wf', rfl⟩ := hread p.1 p.2 e
    exact ⟨field p.1 :: fields, hop, by simp [hf], by simpa [wf'] using wf, by simp [← hr]⟩

theorem readsAs_u8 {k : Byte × List Byte → Except Illegal (Instr × List Byte)}
    (hk : ∀ b r, ReadsAs op (before ++ [.u8 b]) r (k (b, r))) : ReadsAs op before bs (readU8 bs >>= k) :=
  readsAs_bind .u8 (fun _ _ h => ⟨rfl, readU8_ok h⟩) hk

theorem readsAs_w32 {k : Word × List Byte → Except Illegal (Instr × List Byte)}
    (hk : ∀ w r, ReadsAs op (before ++ [.w32 w]) r (k (w, r))) : ReadsAs op before bs (readW32 bs >>= k) :=
  readsAs_bind .w32 (fun _ _ h => ⟨rfl, readW32_ok h⟩) hk

theorem readsAs_blk {k : Block × List Byte → Except Illegal (Instr × List Byte)}
    (hk : ∀ B r, ReadsAs op (before ++ [.blk B]) r (k (B, r))) : ReadsAs op before bs (readBlk bs >>= k) :=
  readsAs_bind .blk (fun _ _ h => ⟨rfl, readBlk_ok h⟩) hk

theorem readsAs_var {k : List Byte × List Byte → Except Illegal (Instr × List Byte)}
    (hk : ∀ v r, ReadsAs op (before ++ [.var v]) r (k (v, r))) : ReadsAs op before bs (readVar bs >>= k) :=
  readsAs_bind .var (fun _ _ h => by simpa [Field.wellFormed, Field.encode] using readVar_ok h) hk

theorem readsAs_blks {k : List Block × List Byte → Except Illegal (Instr × List Byte)}
    (hk : ∀ Bs r, ReadsAs op (before ++ [.blks Bs]) r (k (Bs, r))) : ReadsAs op before bs (readBlks bs >>= k) :=
  readsAs_bind .blks (fun _ _ h => by simpa [Field.wellFormed, Field.encode] using readBlks_ok h) hk

end

/-- Each operation reads the fields of its format, one after the other (rule R73). -/
theorem readOperands_readsAs (op : Op) (bs : List Byte) : ReadsAs op [] bs (readOperands op bs) := by
  cases op with
  | sbox => exact readsAs_u8 fun _ _ => readsAs_end rfl rfl
  | diff => exact readsAs_w32 fun _ _ => readsAs_end rfl rfl
  | cxf => exact readsAs_w32 fun _ _ => readsAs_end rfl rfl
  | ksched => exact readsAs_var fun _ _ => readsAs_end rfl rfl
  | encb => exact readsAs_blk fun _ _ => readsAs_end rfl rfl
  | decb => exact readsAs_blk fun _ _ => readsAs_end rfl rfl
  | ksb => exact readsAs_var fun _ _ => readsAs_w32 fun _ _ => readsAs_end rfl rfl
  | ctrx => exact readsAs_var fun _ _ => readsAs_var fun _ _ => readsAs_end rfl rfl
  | gfmul => exact readsAs_blk fun _ _ => readsAs_blk fun _ _ => readsAs_end rfl rfl
  | ghash => exact readsAs_blk fun _ _ => readsAs_blks fun _ _ => readsAs_end rfl rfl
  | aeade => exact readsAs_var fun _ _ => readsAs_var fun _ _ => readsAs_var fun _ _ => readsAs_end rfl rfl
  | aeadd =>
    exact readsAs_var fun _ _ => readsAs_var fun _ _ => readsAs_var fun _ _ => readsAs_blk fun _ _ => readsAs_end rfl rfl

/-- What the decoder accepts is the frame of the well-formed command it reads. -/
theorem encode_of_decode_ok {F : Frame} {i : Instr} (h : decode F = .ok i) : i.wellFormed = true ∧ encode i = F := by
  cases F with
  | nil => cases h
  | cons b bs =>
    cases hb : opOfByte b with
    | none => simp [decode, hb] at h
    | some op =>
      obtain rfl := opOfByte_eq_some.mp hb
      rw [decode_code_cons] at h
      cases e : readOperands op bs with
      | error x => simp [e, bind, Except.bind] at h
      | ok p =>
        obtain ⟨j, r⟩ := p
        cases r with
        | cons x xs => simp [e, bind, Except.bind, endOfFrame] at h
        | nil =>
          simp only [e, bind, Except.bind, endOfFrame, Except.ok.injEq] at h
          obtain rfl := h
          obtain ⟨fields, rfl, hf, wf, hbs⟩ := readOperands_readsAs op bs j [] e
          exact ⟨by simpa [Instr.wellFormed, hf] using wf, by simp [encode, hf, hbs]⟩

/-- The frame of a well-formed command decodes to it, whatever the values of its operands. -/
theorem decode_encode {i : Instr} (h : i.wellFormed = true) : decode (encode i) = .ok i := by
  have e := readOperands_fields h []
  rw [List.append_nil] at e
  rw [encode, decode_code_cons, e]
  rfl

/-- No frame of a well-formed command continues that of another: both are read by the operation that their common first byte
names, and reading stops at the end of the shorter one's fields. -/
theorem eq_nil_of_encode_append_eq {i j : Instr} {r : List Byte} (hi : i.wellFormed = true) (hj : j.wellFormed = true)
    (h : encode i ++ r = encode j) : r = [] := by
  obtain ⟨code, fields⟩ := List.cons.inj (h : _ :: _ = _ :: _)
  have op : i.op = j.op := Option.some.inj ((opOfByte_code i.op).symm.trans (code ▸ opOfByte_code j.op))
  have read : readOperands i.op (i.fields.flatMap Field.encode ++ r) = .ok (j, []) := by
    rw [show i.fields.flatMap Field.encode ++ r = _ from fields, op]
    simpa using readOperands_fields hj []
  rw [readOperands_fields hi] at read
  cases read
  rfl

/-- A frame that more bytes would complete to the frame of a well-formed command does not decode. -/
theorem decode_ne_ok_of_append {i : Instr} {F r : Frame} (hi : i.wellFormed = true) (h : F ++ r = encode i) (hr : r ≠ [])
    (j : Instr) : decode F ≠ .ok j := by
  intro hj
  obtain ⟨wf, rfl⟩ := encode_of_decode_ok hj
  exact hr (eq_nil_of_encode_append_eq wf hi h)

theorem kind_eq_u8_iff {f : Field} : f.kind = .u8 ↔ ∃ b, f = .u8 b := by
  cases f <;> simp [Field.kind]

theorem kind_eq_w32_iff {f : Field} : f.kind = .w32 ↔ ∃ w, f = .w32 w := by
  cases f <;> simp [Field.kind]

theorem kind_eq_blk_iff {f : Field} : f.kind = .blk ↔ ∃ B, f = .blk B := by
  cases f <;> simp [Field.kind]

theorem kind_eq_var_iff {f : Field} : f.kind = .var ↔ ∃ bs, f = .var bs := by
  cases f <;> simp [Field.kind]

theorem kind_eq_blks_iff {f : Field} : f.kind = .blks ↔ ∃ Bs, f = .blks Bs := by
  cases f <;> simp [Field.kind]

theorem map_kind_fields (i : Instr) : i.fields.map Field.kind = i.op.format := by
  cases i <;> rfl

/-- Fields of the kinds of an operation's format are the operands of a command (rule R73). -/
theorem exists_instr_of_kinds {op : Op} {fields : List Field} (h : fields.map Field.kind = op.format) :
    ∃ i : Instr, i.op = op ∧ i.fields = fields := by
  cases op <;>
    simp only [Op.format, List.map_eq_cons_iff, List.map_eq_nil_iff, kind_eq_u8_iff, kind_eq_w32_iff, kind_eq_blk_iff,
      kind_eq_var_iff, kind_eq_blks_iff] at h
  case sbox =>
    obtain ⟨_, _, rfl, ⟨b, rfl⟩, rfl⟩ := h
    exact ⟨.sbox b, rfl, rfl⟩
  case diff =>
    obtain ⟨_, _, rfl, ⟨w, rfl⟩, rfl⟩ := h
    exact ⟨.diff w, rfl, rfl⟩
  case cxf =>
    obtain ⟨_, _, rfl, ⟨w, rfl⟩, rfl⟩ := h
    exact ⟨.cxf w, rfl, rfl⟩
  case ksched =>
    obtain ⟨_, _, rfl, ⟨key, rfl⟩, rfl⟩ := h
    exact ⟨.ksched key, rfl, rfl⟩
  case encb =>
    obtain ⟨_, _, rfl, ⟨B, rfl⟩, rfl⟩ := h
    exact ⟨.encb B, rfl, rfl⟩
  case decb =>
    obtain ⟨_, _, rfl, ⟨B, rfl⟩, rfl⟩ := h
    exact ⟨.decb B, rfl, rfl⟩
  case ksb =>
    obtain ⟨_, _, rfl, ⟨N, rfl⟩, _, _, rfl, ⟨ctr, rfl⟩, rfl⟩ := h
    exact ⟨.ksb N ctr, rfl, rfl⟩
  case ctrx =>
    obtain ⟨_, _, rfl, ⟨N, rfl⟩, _, _, rfl, ⟨D, rfl⟩, rfl⟩ := h
    exact ⟨.ctrx N D, rfl, rfl⟩
  case gfmul =>
    obtain ⟨_, _, rfl, ⟨x, rfl⟩, _, _, rfl, ⟨y, rfl⟩, rfl⟩ := h
    exact ⟨.gfmul x y, rfl, rfl⟩
  case ghash =>
    obtain ⟨_, _, rfl, ⟨H, rfl⟩, _, _, rfl, ⟨msg, rfl⟩, rfl⟩ := h
    exact ⟨.ghash H msg, rfl, rfl⟩
  case aeade =>
    obtain ⟨_, _, rfl, ⟨N, rfl⟩, _, _, rfl, ⟨A, rfl⟩, _, _, rfl, ⟨P, rfl⟩, rfl⟩ := h
    exact ⟨.aeade N A P, rfl, rfl⟩
  case aeadd =>
    obtain ⟨_, _, rfl, ⟨N, rfl⟩, _, _, rfl, ⟨A, rfl⟩, _, _, rfl, ⟨C, rfl⟩, _, _, rfl, ⟨tag, rfl⟩, rfl⟩ := h
    exact ⟨.aeadd N A C tag, rfl, rfl⟩

/-- A frame that ends inside the encoding of a field does not decode: it is the beginning of the frame of the command with that
field in the place of one of its kind and the later fields after it. -/
theorem decode_ne_ok_of_field_cut {i : Instr} {before after : List Field} {f g : Field} {p r : List Byte}
    (hi : i.wellFormed = true) (hf : i.fields = before ++ f :: after) (kind : g.kind = f.kind) (hg : g.wellFormed = true)
    (cut : g.encode = p ++ r) (hr : r ≠ []) (j : Instr) :
    decode (i.op.code :: before.flatMap Field.encode ++ p) ≠ .ok j := by
  obtain ⟨i', op, fields⟩ : ∃ i' : Instr, i'.op = i.op ∧ i'.fields = before ++ g :: after :=
    exists_instr_of_kinds (by rw [← map_kind_fields, hf]; simp [kind])
  have wf : i'.wellFormed = true := by
    rw [Instr.wellFormed, hf] at hi
    rw [Instr.wellFormed, fields]
    simp_all
  have whole : (i.op.code :: before.flatMap Field.encode ++ p) ++ (r ++ after.flatMap Field.encode) = encode i' := by
    simp [encode, op, fields, cut]
  exact decode_ne_ok_of_append wf whole (by simp [hr]) j

/-- The length of a `var` field may not announce more bytes than remain. -/
theorem decode_ne_ok_of_var_cut {i : Instr} {before after : List Field} {bs tail : List Byte} {n : Nat}
    (hi : i.wellFormed = true) (hf : i.fields = before ++ .var bs :: after) (hn : n < 2 ^ 64) (short : tail.length < n)
    (j : Instr) : decode (i.op.code :: before.flatMap Field.encode ++ (be64 n ++ tail)) ≠ .ok j := by
  have len : (tail ++ zeros (n - tail.length)).length = n := by simp [zeros]; omega
  refine decode_ne_ok_of_field_cut (g := .var (tail ++ zeros (n - tail.length))) (r := zeros (n - tail.length))
    hi hf rfl ?_ ?_ ?_ j
  · rw [Field.wellFormed, len]
    exact decide_eq_true hn
  · rw [Field.encode, len, List.append_assoc]
  · simp [zeros]
    omega

/-- The block count of a `blks` field may not announce more Blocks than remain. -/
theorem decode_ne_ok_of_blks_cut {i : Instr} {before after : List Field} {Bs : List Block} {tail : List Byte} {m : Nat}
    (hi : i.wellFormed = true) (hf : i.fields = before ++ .blks Bs :: after) (hm : m < 2 ^ 64)
    (short : tail.length < 16 * m) (j : Instr) :
    decode (i.op.code :: before.flatMap Field.encode ++ (be64 m ++ tail)) ≠ .ok j := by
  have len : (tail ++ zeros (16 * m - tail.length)).length = 16 * m := by simp [zeros]; omega
  refine decode_ne_ok_of_field_cut (g := .blks (takeBlocks m (tail ++ zeros (16 * m - tail.length))))
    (r := zeros (16 * m - tail.length)) hi hf rfl ?_ ?_ ?_ j
  · rw [Field.wellFormed, takeBlocks_length]
    exact decide_eq_true hm
  · rw [Field.encode, takeBlocks_length, takeBlocks_flatMap m _ len, List.append_assoc]
  · simp [zeros]
    omega

/-- The twelve codes are the bytes of rule R75's table; every other first byte is reserved (rule R78). -/
theorem decode_ne_ok_of_reserved {b : Byte}
    (h : b ∉ ([0x01, 0x02, 0x03, 0x10, 0x20, 0x21, 0x30, 0x31, 0x40, 0x41, 0x50, 0x51] : List Byte)) (bs : List Byte)
    (j : Instr) : decode (b :: bs) ≠ .ok j := by
  intro hj
  obtain ⟨-, e⟩ := encode_of_decode_ok hj
  obtain ⟨rfl, -⟩ := List.cons.inj (e : _ :: _ = _ :: _)
  refine h ?_
  cases j.op <;> decide

namespace Machine

/-- A frame that decodes to no command is answered `IllegalCommand`, the rest of the state unchanged (rule R77). -/
theorem step_of_decode_ne_ok {F : Frame} (h : ∀ i, decode F ≠ .ok i) (s : State) (rest : List HostInput) :
    step { s with inputs := .command F :: rest } =
      .next { s with inputs := rest, responses := s.responses ++ [[0x06]] } := by
  cases hd : decode F with
  | error e => exact step_of_decode_error (s := { s with inputs := .command F :: rest }) rfl hd
  | ok i => exact absurd hd (h i)

/-- The frame of a well-formed command is executed as that command. -/
theorem step_encode {i : Instr} (h : i.wellFormed = true) (s : State) (rest : List HostInput) :
    step { s with inputs := .command (encode i) :: rest } = exec i { s with inputs := rest } :=
  step_of_decode_ok rfl (decode_encode h)

/-- A key of another length than sixteen bytes raises `InvalidKeyLength` (rule R191). -/
theorem exec_ksched_of_length_ne {key : List Byte} (h : key.length ≠ 16) (s : State) :
    exec (.ksched key) s = raise .invalidKeyLength s :=
  withKey_of_length_ne h s fun k => complete [] (s.install (contextOfKey k))

/-- With a context installed, a nonce of another length than twelve bytes raises `InvalidNonceLength` (rule R192). -/
theorem exec_of_nonce_length_ne {i : Instr} {N : List Byte} {s : State} (hi : i.nonce? = some N) (hN : N.length ≠ 12)
    (hs : s.keyCtx ≠ none) : exec i s = raise .invalidNonceLength s := by
  obtain ⟨c, hc⟩ := Option.ne_none_iff_exists'.mp hs
  cases i with
  | ksb | ctrx | aeade | aeadd =>
    cases hi
    exact (keyed_some hc _).trans (withNonce_of_length_ne hN s _)
  | sbox | diff | cxf | ksched | encb | decb | gfmul | ghash => cases hi

/-- Settles O5: the illegal frames decode to no command, since what decodes is the whole frame of a well-formed command and no
such frame continues another; a wrong key or nonce length is found by the command the frame decodes to. -/
theorem illegalFramesAreAnsweredIllegalCommand : Obligations.IllegalFramesAreAnsweredIllegalCommand := by
  refine ⟨?empty, ?reserved, ?truncated, ?var, ?blks, ?trailing, ?key, ?nonce⟩
  case empty => exact fun s rest => step_of_decode_ne_ok (by simp [decode]) s rest
  case reserved => exact fun b bs s hb rest => step_of_decode_ne_ok (decode_ne_ok_of_reserved hb bs) s rest
  case truncated =>
    intro i k s hi hk rest
    have cut : (encode i).drop k ≠ [] := by simpa using hk
    exact step_of_decode_ne_ok (decode_ne_ok_of_append hi (List.take_append_drop k _) cut) s rest
  case var =>
    intro i before after bs n tail s hi hf hn short rest
    rw [List.append_assoc]
    exact step_of_decode_ne_ok (decode_ne_ok_of_var_cut hi hf hn short) s rest
  case blks =>
    intro i before after Bs m tail s hi hf hm short rest
    rw [List.append_assoc]
    exact step_of_decode_ne_ok (decode_ne_ok_of_blks_cut hi hf hm short) s rest
  case trailing =>
    intro i b bs s hi rest
    refine step_of_decode_ne_ok (fun j hj => ?_) s rest
    obtain ⟨wf, e⟩ := encode_of_decode_ok hj
    exact List.cons_ne_nil b bs (eq_nil_of_encode_append_eq hi wf e.symm)
  case key =>
    intro key s short len rest
    have wf : (Instr.ksched key).wellFormed = true := by simpa [Instr.wellFormed, Instr.fields, Field.wellFormed] using short
    exact (step_encode wf s rest).trans (exec_ksched_of_length_ne len _)
  case nonce =>
    intro i N s hi hN len hs rest
    exact (step_encode hi s rest).trans (exec_of_nonce_length_ne hN len hs)

end Machine

end Sys2Proof
end

section
/-!
PROOFS. The substitution table and the diffusion (40_sbox_diffusion.md rules R90, R91): the byte at an index of a list of Blocks, the
table entry of every byte, and the diffusion bit by bit.
-/
namespace Sys2Proof.Machine

/-- Byte `i` of a list of Blocks is byte `i mod 16` of Block `i / 16` (rule R25): it lies in the first Block or in the later ones. -/
theorem getElem?_flatMap_bytesOfBlock (Bs : List Block) (i : Nat) :
    (Bs.flatMap bytesOfBlock)[i]? = Bs[i / 16]?.map (Block.byte · (i % 16)) := by
  induction Bs generalizing i with
  | nil => simp
  | cons B Bs ih =>
    rw [List.flatMap_cons]
    by_cases first : i < 16
    · rw [List.getElem?_append_left (by simpa using first), getElem?_bytesOfBlock B i first, Nat.div_eq_of_lt first,
        Nat.mod_eq_of_lt first, List.getElem?_cons_zero, Option.map_some]
    · have block : i / 16 = (i - 16) / 16 + 1 := by omega
      have byte : i % 16 = (i - 16) % 16 := by omega
      rw [List.getElem?_append_right (by simpa using first), bytesOfBlock_length, ih, block, List.getElem?_cons_succ, byte]

/-- Row the high nibble, column the low one: `S(b)` is entry `b` of the table in index order (rules R25, R90). -/
theorem getElem?_sboxRows (b : Byte) : (Params.sboxRows.flatMap bytesOfBlock)[b.toNat]? = some (substitute b) := by
  have row : (b.extractLsb' 4 4).toNat = b.toNat / 16 := by
    rw [BitVec.extractLsb'_toNat, Nat.shiftRight_eq_div_pow]
    omega
  have column : (b.extractLsb' 0 4).toNat = b.toNat % 16 := by simp
  have inTable : b.toNat / 16 < Params.sboxRows.length := by
    have : Params.sboxRows.length = 16 := rfl
    omega
  rw [getElem?_flatMap_bytesOfBlock, substitute, row, column, List.getD_eq_getElem _ _ inTable,
    List.getElem?_eq_getElem inTable, Option.map_some]

/-- The inverse table: entry `v` is the byte whose table entry is `v`, in the grid form of rule R25. -/
def inverseSboxRows : List Block :=
  [0x716c7ab8160f1e4135ebd02ae4ac625a, 0xcdc8db1a0a8e0846f04b96c132a060cc,
   0xf76d69aa61681b760ca914100ed8a3b7, 0x9bd29a28955f79b286fef46b4a06fb3e,
   0x84cb212b19b37240ff1ce35b78f6ae4e, 0x22bf77ad29975d736549cebeca9263fa,
   0xa78d2f6455e8a51150e1ba51bdbcedaf, 0x5c54bb45d93c13e66ef827d66af2e7c7,
   0x3852a448ef4d1d6fd3e082579dc0b63d, 0x0124c3993a37e5e2261f1294205e7f74,
   0x7c8f678893d43f424f3318ab2e9891c2, 0xdf9e5331de870907dce947c4c6d71581,
   0xa8d10b177decee857e34a6fd04d58b2d, 0xda66837570b000fccfc956b1f5c5b439,
   0x9005a29f30dd4c7b36028059f32cf925, 0xf1ea8a44239ca189588c3b0d43b503b9]

/-- The entry of a byte in the inverse table. -/
def unsubstitute (v : Byte) : Byte :=
  Block.byte (inverseSboxRows.getD (v.extractLsb' 4 4).toNat 0) (v.extractLsb' 0 4).toNat

theorem unsubstitute_substitute : ∀ b : Byte, unsubstitute (substitute b) = b := by decide +kernel

/-- The inverse table makes `S` injective, and an injective function of bytes to bytes is a bijection (rule R90). -/
theorem substitute_bijective : Function.Bijective substitute :=
  Finite.injective_iff_bijective.mp (Function.LeftInverse.injective unsubstitute_substitute)

/-- SBOX in every state (rule R94). -/
theorem exec_sbox (b : Byte) (s : State) : exec (.sbox b) s = .next (s.respond [0x00, substitute b]) := rfl

/-- Settles O24: the table of the statement is the model's, whose entry `b` is `S(b)`, and `S` is a bijection. -/
theorem sboxAnswersTheTableEntry : Obligations.SboxAnswersTheTableEntry := by
  refine ⟨fun b s => ⟨substitute b, getElem?_sboxRows b, exec_sbox b s⟩, fun v => ?_⟩
  obtain ⟨b, hb, unique⟩ := substitute_bijective.existsUnique v
  refine ⟨b, (getElem?_sboxRows b).trans (congrArg some hb), fun a ha => unique a ?_⟩
  exact Option.some.inj ((getElem?_sboxRows a).symm.trans ha)

/-- `L` bit by bit: a rotation to the left by `k` brings bit `i - k` to bit `i` (rule R91). -/
theorem getLsbD_diffuse (w : Word) {i : Nat} (hi : i < 32) :
    (diffuse w).getLsbD i = ((((w.getLsbD i ^^ w.getLsbD ((i + 30) % 32)) ^^ w.getLsbD ((i + 22) % 32)) ^^
      w.getLsbD ((i + 14) % 32)) ^^ w.getLsbD ((i + 8) % 32)) := by
  simp only [diffuse, BitVec.getLsbD_xor, getLsbD_rotateLeft_word _ _ _ hi, Nat.reduceMod, Nat.reduceSub]

/-- DIFF in every state (rule R95). -/
theorem exec_diff (w : Word) (s : State) : exec (.diff w) s = .next (s.respond (0x00 :: bytes32 (diffuse w))) := rfl

/-- Settles O25: the word answered is `L(w)`, whose bits are those of `w` and of its four rotations. -/
theorem diffRotatesAndXors : Obligations.DiffRotatesAndXors :=
  fun w s => ⟨diffuse w, exec_diff w s, fun _ hi => getLsbD_diffuse w hi⟩

end Sys2Proof.Machine
end

section
/-!
PROOFS. The key schedule (41_key_schedule.md rules R112 to R114): the register before each round, the round keys it gives, and the
words it starts from.
-/
namespace Sys2Proof.Machine

/-- The key-schedule register before round `i` of the loop of rule R112. -/
def ksRegister (key : Block) : Nat → Words4
  | 0 => ksInit key
  | i + 1 => ksSet (ksRegister key i) i (ksRoundKey (ksRegister key i) i)

/-- The register's index counts modulo 4 (rule R31). -/
theorem ksGet_mod_four (K : Words4) (i : Nat) : ksGet K (i % 4) = ksGet K i := by
  rw [ksGet, Nat.mod_mod, ← ksGet]

/-- The rounds from round `i` on, begun with the register before it, give the round keys of the registers in order. -/
theorem ksRounds_ksRegister (key : Block) (n i : Nat) :
    ksRounds n i (ksRegister key i) = (List.range' i n).map fun k => ksRoundKey (ksRegister key k) k := by
  induction n generalizing i with
  | zero => rfl
  | succ n ih => rw [ksRounds, List.range'_succ, List.map_cons, ← ih (i + 1), ksRegister]

/-- `rk[i]` is the round key of the register before round `i` (rule R112). -/
theorem getElem_expandKey (key : Block) (i : Fin 32) : (expandKey key)[i] = ksRoundKey (ksRegister key i) i := by
  have keys : (expandKey key).toList = (List.range' 0 32).map fun k => ksRoundKey (ksRegister key k) k :=
    ksRounds_ksRegister key 32 0
  have entry : (expandKey key)[i] = (expandKey key).toList[i.val] := (Vector.getElem_toList _).symm
  simp [entry, keys]

/-- `rk[i]` from the register before round `i`, the round constant by its formula (rules R27, R112). -/
theorem ksRoundKey_formula (K : Words4) {i : Nat} (hi : i < 32) : ksRoundKey K i = ksGet K (i % 4) ^^^
    ksDiffuse (tau (ksGet K ((i + 1) % 4) ^^^ ksGet K ((i + 2) % 4) ^^^ ksGet K ((i + 3) % 4) ^^^
      be32 ((List.range 4).map fun j => BitVec.ofNat 8 ((4 * i + j) * 7)))) := by
  simp only [ksRoundKey, ksCompound, ksGet_mod_four, ck_formula i hi]

/-- Round `i` overwrites word `i mod 4` of the register with its round key and leaves the other words (rule R112). -/
theorem ksGet_ksRegister_succ (key : Block) (i : Nat) {j : Nat} (hj : j < 4) : ksGet (ksRegister key (i + 1)) j =
    if j = i % 4 then ksRoundKey (ksRegister key i) i else ksGet (ksRegister key i) j := by
  rw [ksRegister, ksGet_ksSet, Nat.mod_eq_of_lt hj]

/-- The register starts with the big-endian words of the key XORed with `FK` (rules R26, R55, R112). -/
theorem ksGet_ksInit {key : List Byte} (h : key.length = 16) {j : Nat} (hj : j < 4) :
    ksGet (ksInit (blockOfBytes key)) j = be32 ((key.drop (4 * j)).take 4) ^^^
      ([0xA3B1BAC6, 0x56AA3350, 0x677D9197, 0xB27022DC] : List Word).getD j 0 := by
  rw [ksInit, words_blockOfBytes key h]
  interval_cases j <;> rfl

/-- Settles O28: `K i j` is word `j` of the register before round `i`, and the context is the key's. -/
theorem kschedInstallsTheScheduleOfTheKey : Obligations.KschedInstallsTheScheduleOfTheKey := by
  intro key s len
  refine ⟨fun i => ksGet (ksRegister (blockOfBytes key) i), contextOfKey (blockOfBytes key), fun j => ksGet_ksInit len,
    fun i => ?_, rfl, exec_ksched_of_length len s⟩
  have rk : (contextOfKey (blockOfBytes key)).rk[i] = ksRoundKey (ksRegister (blockOfBytes key) i) i := getElem_expandKey _ i
  rw [rk]
  exact ⟨ksRoundKey_formula _ i.isLt, fun j => ksGet_ksRegister_succ _ i⟩

end Sys2Proof.Machine
end

section
/-!
PROOFS. The block cipher (42_block_cipher.md rules R120 to R126): the window before each round, what ENCB and DECB answer, and the
network run backwards by the reversed round keys.
-/
namespace Sys2Proof.Machine

/-- The cipher window before round `i`, or after the last round (rules R32, R121). -/
def cipherWindow (ks : List Word) (B : Block) (i : Nat) : Words4 := (ks.take i).foldl feistelRound (words B)

/-- Round `i` uses round key `i` (rule R121). -/
theorem cipherWindow_succ {ks : List Word} (B : Block) {i : Nat} (hi : i < ks.length) :
    cipherWindow ks B (i + 1) = feistelRound (cipherWindow ks B i) ks[i] := by
  rw [cipherWindow, List.take_succ_eq_append_getElem hi, List.foldl_append, ← cipherWindow, List.foldl_cons, List.foldl_nil]

/-- Under 32 round keys the network answers the words of the window after round 31, in reverse order (rule R121). -/
theorem bytesOfBlock_feistel {ks : List Word} (h : ks.length = 32) (B : Block) : bytesOfBlock (feistel ks B) =
    bytes32 (cipherWindow ks B 32).x3 ++ bytes32 (cipherWindow ks B 32).x2 ++
      bytes32 (cipherWindow ks B 32).x1 ++ bytes32 (cipherWindow ks B 32).x0 := by
  rw [feistel, bytesOfBlock_block, cipherWindow, List.take_of_length_le h.le]

/-- ENCB with a context installed (rule R124). -/
theorem exec_encb {s : State} {c : KeyContext} (hs : s.keyCtx = some c) (B : Block) :
    exec (.encb B) s = .next (s.respond (0x00 :: bytesOfBlock (encWith c.rk B))) :=
  calc exec (.encb B) s = complete [.blk (encWith c.rk B)] s := keyed_some hs fun c => complete [.blk (encWith c.rk B)] s
    _ = .next (s.respond (0x00 :: bytesOfBlock (encWith c.rk B))) := by simp [complete_eq, Field.encode]

/-- DECB with a context installed (rule R125). -/
theorem exec_decb {s : State} {c : KeyContext} (hs : s.keyCtx = some c) (B : Block) :
    exec (.decb B) s = .next (s.respond (0x00 :: bytesOfBlock (decWith c.rk B))) :=
  calc exec (.decb B) s = complete [.blk (decWith c.rk B)] s := keyed_some hs fun c => complete [.blk (decWith c.rk B)] s
    _ = .next (s.respond (0x00 :: bytesOfBlock (decWith c.rk B))) := by simp [complete_eq, Field.encode]

/-- Settles O29: `X i` is the window before round `i` under the round keys in order. -/
theorem encbRunsThirtyTwoRounds : Obligations.EncbRunsThirtyTwoRounds := by
  intro B s c hB hs
  have len : c.rk.toList.length = 32 := Vector.length_toList
  refine ⟨cipherWindow c.rk.toList (blockOfBytes B), words_blockOfBytes B hB, fun i => ?_, ?_⟩
  · have key : c.rk.toList[i.val] = c.rk[i] := Vector.getElem_toList _
    rw [cipherWindow_succ _ (by omega), key]
    rfl
  · rw [exec_encb hs, encWith, bytesOfBlock_feistel len]
    rfl

/-- Settles O30: `X i` is the window before round `i` under the reversed round keys, whose entry `i` is `RK[31 - i]`. -/
theorem decbRunsTheRoundsWithReversedKeys : Obligations.DecbRunsTheRoundsWithReversedKeys := by
  intro B s c hB hs
  have len : c.rk.toList.reverse.length = 32 := by simp
  refine ⟨cipherWindow c.rk.toList.reverse (blockOfBytes B), words_blockOfBytes B hB, fun i => ?_, ?_⟩
  · have key : c.rk.toList.reverse[i.val] = c.rk[i.rev] := by simp [Fin.rev]
    rw [cipherWindow_succ _ (by omega), key]
    rfl
  · rw [exec_decb hs, decWith, bytesOfBlock_feistel len]
    rfl

/-- The window with its words in reverse order (90_conflicts.md C2). -/
def reverseWords (X : Words4) : Words4 := ⟨X.x3, X.x2, X.x1, X.x0⟩

theorem words_feistel (ks : List Word) (B : Block) :
    words (feistel ks B) = reverseWords (ks.foldl feistelRound (words B)) := words_block ..

/-- The words of a Block put together again are the Block (rule R54). -/
theorem block_words (B : Block) : block (words B).x0 (words B).x1 (words B).x2 (words B).x3 = B := by
  simp only [block, words]
  rw [BitVec.extractLsb'_append_extractLsb'_eq_extractLsb' (by rfl),
    BitVec.extractLsb'_append_extractLsb'_eq_extractLsb' (by rfl),
    BitVec.extractLsb'_append_extractLsb'_eq_extractLsb' (by rfl)]
  exact BitVec.extractLsb'_eq_self

theorem words_injective : Function.Injective words := fun B C h => by
  rw [← block_words B, h, block_words C]

/-- `F` undoes itself with its three middle words in reverse order: the same value of `T` is brought in again (rule R120). -/
theorem roundFunction_roundFunction (x0 x1 x2 x3 k : Word) :
    roundFunction (roundFunction x0 x1 x2 x3 k) x3 x2 x1 k = x0 := by
  have sum : x3 ^^^ x2 ^^^ x1 = x1 ^^^ x2 ^^^ x3 := by
    rw [BitVec.xor_assoc, BitVec.xor_comm x3, BitVec.xor_comm x2]
  rw [roundFunction, roundFunction, sum, BitVec.xor_assoc, BitVec.xor_self, BitVec.xor_zero]

/-- A round leads from the reversed window after it to the reversed window before it. -/
theorem feistelRound_reverseWords (X : Words4) (k : Word) :
    feistelRound (reverseWords (feistelRound X k)) k = reverseWords X := by
  simp only [feistelRound, reverseWords, roundFunction_roundFunction]

/-- The rounds with the keys reversed lead from the reversed last window back to the reversed first one. -/
theorem foldl_feistelRound_reverse (ks : List Word) (X : Words4) :
    ks.reverse.foldl feistelRound (reverseWords (ks.foldl feistelRound X)) = reverseWords X := by
  induction ks generalizing X with
  | nil => rfl
  | cons k ks ih =>
    rw [List.reverse_cons, List.foldl_append, List.foldl_cons (l := ks), ih, List.foldl_cons, List.foldl_nil,
      feistelRound_reverseWords]

/-- The network with the keys reversed undoes the network, for any number of round keys. -/
theorem feistel_reverse_feistel (ks : List Word) (B : Block) : feistel ks.reverse (feistel ks B) = B := by
  apply words_injective
  rw [words_feistel, words_feistel, foldl_feistelRound_reverse]
  rfl

/-- Settles O31: decryption is the network under the reversed keys, and encryption under those reversed once more. -/
theorem cipherRoundTrip : Obligations.CipherRoundTrip := by
  intro rk B
  have back := feistel_reverse_feistel rk.toList.reverse B
  rw [List.reverse_reverse] at back
  exact ⟨feistel_reverse_feistel rk.toList B, back⟩

end Sys2Proof.Machine
end

section
/-!
PROOFS. What KSB answers (43_ctr_keystream.md rules R135, R136, R138): the enciphered counter block as a `blk` field.
-/
namespace Sys2Proof.Machine

/-- KSB with a context installed and a nonce of twelve bytes (rule R138). -/
theorem exec_ksb {N : List Byte} {s : State} {c : KeyContext} (hN : N.length = 12) (hs : s.keyCtx = some c) (ctr : Word) :
    exec (.ksb N ctr) s = .next (s.respond (0x00 :: bytesOfBlock (ksBlock c.rk (nonceOfBytes N) ctr))) :=
  calc exec (.ksb N ctr) s = execKsb N ctr s := rfl
    _ = complete [.blk (ksBlock c.rk (nonceOfBytes N) ctr)] s := by
      rw [execKsb, keyed_some hs, withNonce_of_length hN]
    _ = .next (s.respond (0x00 :: bytesOfBlock (ksBlock c.rk (nonceOfBytes N) ctr))) := by
      simp [complete_eq, Field.encode]

/-- Settles O32: the nonce's bytes followed by the counter's four bytes are the counter block KSB enciphers. -/
theorem ksbEnciphersTheCounterBlock : Obligations.KsbEnciphersTheCounterBlock := by
  intro N ctr s c hN hs
  have counterBlock : ctrBlock (nonceOfBytes N) ctr = blockOfBytes (N ++ bytes32 ctr) := ctrBlock_nonceOfBytes N ctr
  rw [exec_ksb hN hs, ksBlock, counterBlock, State.respond]

end Sys2Proof.Machine
end

section
/-!
PROOFS. The multiplier and the hash (44_galois_hash.md rules R150 to R153): a Block read as a polynomial over GF(2), the loop of the
multiplication as a product modulo the field polynomial, and the accumulator of the hash.
-/
namespace Sys2Proof.Machine
open Polynomial

/-- The polynomial over GF(2) that a Block stands for: bit `k` is the coefficient of `x^k` (rule R12). -/
noncomputable def gfPoly (E : Block) : (ZMod 2)[X] := ∑ k ∈ Finset.range 128, if gbit E k then X ^ k else 0

/-- The field polynomial (rule R12). -/
noncomputable def fieldPoly : (ZMod 2)[X] := X ^ 128 + X ^ 7 + X ^ 2 + X + 1

/-- `gbit` as a bit of a byte: the most significant bit of byte 0 is bit 0 (rule R150). -/
theorem gbit_eq_getLsbD_byte (E : Block) {k : Nat} (hk : k < 128) :
    gbit E k = (Block.byte E (k / 8)).getLsbD (7 - k % 8) := by
  have position : 8 * (15 - k / 8) + (7 - k % 8) = 127 - k := by omega
  have inByte : 7 - k % 8 < 8 := by omega
  simp [gbit, Block.byte, inByte, position]

theorem coeff_gfPoly (E : Block) (k : Nat) : (gfPoly E).coeff k = if k < 128 ∧ gbit E k = true then 1 else 0 := by
  have term (j : Nat) : (if gbit E j then X ^ j else 0 : (ZMod 2)[X]).coeff k =
      if k = j then (if gbit E j then 1 else 0) else 0 := by
    split <;> simp [coeff_X_pow]
  simp [gfPoly, term, ite_and]

theorem degree_gfPoly_lt (E : Block) : (gfPoly E).degree < 128 :=
  (degree_lt_iff_coeff_zero _ 128).mpr fun k hk => by simp [coeff_gfPoly, Nat.not_lt.mpr hk]

theorem gfPoly_zero : gfPoly 0 = 0 := by simp [gfPoly, gbit]

/-- Addition in the field is the exclusive or (rule R154). -/
theorem gfPoly_xor (A B : Block) : gfPoly (A ^^^ B) = gfPoly A + gfPoly B := by
  ext k
  have bit : gbit (A ^^^ B) k = (gbit A k ^^ gbit B k) := BitVec.getLsbD_xor
  by_cases hk : k < 128
  · rw [coeff_add, coeff_gfPoly, coeff_gfPoly, coeff_gfPoly, bit]
    cases gbit A k <;> cases gbit B k <;> simp [hk, CharTwo.add_self_eq_zero]
  · simp [coeff_gfPoly, hk]

/-- `GF_REDUCE` in the top byte is what the field polynomial puts for `x^128` (rules R28, R150). -/
theorem gfPoly_gfReduce : gfPoly (Params.gfReduce ++ (0 : BitVec 120)) = X ^ 7 + X ^ 2 + X + 1 := by
  have bits : (Finset.range 128).filter (gbit (Params.gfReduce ++ (0 : BitVec 120)) · = true) = {7, 2, 1, 0} := by decide
  rw [gfPoly, ← Finset.sum_filter, bits]
  simp [add_assoc]

/-- A shift to the right multiplies by `x`, but for the bit carried out, which stands for `x^128` (rule R150). -/
theorem X_mul_gfPoly (V : Block) : X * gfPoly V = gfPoly (V >>> 1) + if V.getLsbD 0 then X ^ 128 else 0 := by
  have top : gbit (V >>> 1) 0 = false := by simp [gbit]
  have shifted {k : Nat} (hk : k < 127) : gbit (V >>> 1) (k + 1) = gbit V k := by
    rw [gbit, gbit, BitVec.getLsbD_ushiftRight, show 1 + (127 - (k + 1)) = 127 - k by omega]
  have low : gfPoly (V >>> 1) = ∑ k ∈ Finset.range 127, if gbit V k then X ^ (k + 1) else 0 := by
    rw [gfPoly, Finset.sum_range_succ', top]
    simpa using Finset.sum_congr rfl fun k hk => by rw [shifted (Finset.mem_range.mp hk)]
  have carried : V.getLsbD 0 = gbit V 127 := rfl
  rw [low, carried, gfPoly, Finset.sum_range_succ, mul_add, Finset.mul_sum]
  simp only [mul_ite, mul_zero, ← pow_succ', Nat.reduceAdd]

/-- The class of a Block's polynomial modulo the field polynomial. -/
noncomputable def gfElem (E : Block) : AdjoinRoot fieldPoly := AdjoinRoot.mk fieldPoly (gfPoly E)

theorem gfElem_zero : gfElem 0 = 0 := by rw [gfElem, gfPoly_zero, map_zero]

theorem gfElem_xor (A B : Block) : gfElem (A ^^^ B) = gfElem A + gfElem B := by simp [gfElem, gfPoly_xor]

/-- In the field `x^128` is `x^7 + x^2 + x + 1`, the polynomial of the reduction constant (rules R28, R150). -/
theorem mk_X_pow_128 : AdjoinRoot.mk fieldPoly (X ^ 128) = gfElem (Params.gfReduce ++ (0 : BitVec 120)) := by
  have difference : X ^ 128 - (X ^ 7 + X ^ 2 + X + 1) = fieldPoly := by
    rw [CharTwo.sub_eq_add]
    unfold fieldPoly
    ring
  rw [gfElem, gfPoly_gfReduce, AdjoinRoot.mk_eq_mk, difference]

/-- Each step of the shifting copy multiplies it by `x` in the field (rule R150). -/
theorem gfElem_gfShift (V : Block) : gfElem (gfShift V) = AdjoinRoot.root fieldPoly * gfElem V := by
  rw [gfElem.eq_def V, ← AdjoinRoot.mk_X, ← map_mul, X_mul_gfPoly, map_add, ← gfElem, gfShift]
  split
  · rw [gfElem_xor, mk_X_pow_128]
  · rw [map_zero, add_zero]

theorem gfElem_iterate_gfShift (V : Block) (n : Nat) :
    gfElem (gfShift^[n] V) = AdjoinRoot.root fieldPoly ^ n * gfElem V := by
  induction n with
  | zero => simp
  | succ n ih => rw [Function.iterate_succ_apply', gfElem_gfShift, ih, pow_succ', mul_assoc]

/-- The product `Z` before bit `n` of the loop of rule R150, or after the last bit. -/
def gfPartial (A B : Block) (n : Nat) : Block := ((List.range n).foldl (gfStep A) (0, B)).1

/-- The loop's invariant: before bit `n` the product is that of the bits of the first operand seen so far (rule R150). -/
theorem gfElem_gfPartial (A B : Block) (n : Nat) : gfElem (gfPartial A B n) =
    AdjoinRoot.mk fieldPoly (∑ k ∈ Finset.range n, if gbit A k then X ^ k else 0) * gfElem B := by
  induction n with
  | zero => simpa [gfPartial] using gfElem_zero
  | succ n ih =>
    rw [gfPartial, gfStep_foldl_fst_succ, ← gfPartial, Finset.sum_range_succ, map_add, add_mul, ← ih]
    split
    · rw [gfElem_xor, gfElem_iterate_gfShift, map_pow, AdjoinRoot.mk_X]
    · simp

/-- The multiplication is that of the field (rule R150). -/
theorem gfElem_gfMul (A B : Block) : gfElem (gfMul A B) = gfElem A * gfElem B := gfElem_gfPartial A B 128

theorem fieldPoly_monic : fieldPoly.Monic := by
  unfold fieldPoly
  monicity!

theorem degree_fieldPoly : fieldPoly.degree = 128 := by
  unfold fieldPoly
  compute_degree!

/-- A Block's polynomial is the reduced one of its class: equal to what any polynomial of that class leaves modulo the field
polynomial. -/
theorem gfPoly_eq_modByMonic {E : Block} {f : (ZMod 2)[X]} (h : gfElem E = AdjoinRoot.mk fieldPoly f) :
    gfPoly E = f %ₘ fieldPoly := by
  have reduced : gfPoly E %ₘ fieldPoly = gfPoly E :=
    (modByMonic_eq_self_iff fieldPoly_monic).mpr (by rw [degree_fieldPoly]; exact degree_gfPoly_lt E)
  rw [← reduced]
  exact modByMonic_eq_of_dvd_sub fieldPoly_monic (AdjoinRoot.mk_eq_mk.mp h)

/-- The product is that of the polynomials modulo the field polynomial (rule R150). -/
theorem gfPoly_gfMul (A B : Block) : gfPoly (gfMul A B) = (gfPoly A * gfPoly B) %ₘ fieldPoly :=
  gfPoly_eq_modByMonic ((gfElem_gfMul A B).trans (map_mul _ _ _).symm)

/-- The polynomial of a Block with each bit read from its byte (rules R12, R150). -/
theorem gfPoly_eq_sum_byte (E : Block) : gfPoly E =
    ∑ k ∈ Finset.range 128, if (Block.byte E (k / 8)).getLsbD (7 - k % 8) then X ^ k else 0 :=
  Finset.sum_congr rfl fun k hk => by rw [gbit_eq_getLsbD_byte E (Finset.mem_range.mp hk)]

/-- GFMUL in every state (rule R152). -/
theorem exec_gfmul (x y : Block) (s : State) :
    exec (.gfmul x y) s = .next (s.respond (0x00 :: bytesOfBlock (gfMul x y))) :=
  calc exec (.gfmul x y) s = complete [.blk (gfMul x y)] s := rfl
    _ = .next (s.respond (0x00 :: bytesOfBlock (gfMul x y))) := by simp [complete_eq, Field.encode]

/-- Settles O36: `Z` is the product after each bit of the loop and `V` the copy shifted as often. -/
theorem gfmulMultipliesPolynomials : Obligations.GfmulMultipliesPolynomials := by
  intro x y s
  refine ⟨gfPartial x y, fun k => gfShift^[k] y, rfl, rfl, fun k hk => ?_, fun k _ => ?_, ?_, exec_gfmul x y s⟩
  · have next := gfStep_foldl_fst_succ x y k
    rwa [gbit_eq_getLsbD_byte x hk] at next
  · exact Function.iterate_succ_apply' gfShift k y
  · have product := gfPoly_gfMul x y
    rw [gfPoly_eq_sum_byte, gfPoly_eq_sum_byte x, gfPoly_eq_sum_byte y] at product
    unfold fieldPoly at product
    exact product

/-- The hash takes in one more block by an exclusive or and a multiplication by the hash key (rule R151). -/
theorem ghash_append_singleton (h : Block) (msg : List Block) (M : Block) :
    ghash h (msg ++ [M]) = gfMul (ghash h msg ^^^ M) h := by
  rw [ghash, List.foldl_append, ← ghash, List.foldl_cons, List.foldl_nil]

/-- GHASH in every state (rule R153). -/
theorem exec_ghash (h : Block) (msg : List Block) (s : State) :
    exec (.ghash h msg) s = .next (s.respond (0x00 :: bytesOfBlock (ghash h msg))) :=
  calc exec (.ghash h msg) s = complete [.blk (ghash h msg)] s := rfl
    _ = .next (s.respond (0x00 :: bytesOfBlock (ghash h msg))) := by simp [complete_eq, Field.encode]

/-- Settles O39: the accumulator after `i` blocks is the hash of the first `i` blocks. -/
theorem ghashAccumulatesTheBlocks : Obligations.GhashAccumulatesTheBlocks := by
  intro h msg s
  refine ⟨fun i => ghash h (msg.take i), rfl, fun i M hM => ?_, ?_⟩
  · simp only [List.take_add_one, hM, Option.toList_some, ghash_append_singleton]
  · simp only [List.take_length, exec_ghash, State.respond]

end Sys2Proof.Machine
end

section
/-!
PROOFS. Authenticated encryption (45_aead.md rules R170 to R178): the bytes of the hash input, what AEADE and AEADD answer when no
operand is at fault, and that decryption gives back what encryption took.
-/
namespace Sys2Proof.Machine

/-- The padding as so many zero bytes: the distance to the length in whole Blocks (rule R11). -/
theorem pad16_eq_append_replicate (bs : List Byte) :
    pad16 bs = bs ++ List.replicate (16 * ceil16 bs.length - bs.length) 0 := by
  have count : (16 - bs.length % 16) % 16 = 16 * ceil16 bs.length - bs.length := by
    unfold ceil16
    omega
  rw [pad16, zeros, count]

/-- The hash input is whole Blocks: the two padded strings and one Block of lengths (rule R170). -/
theorem hashInput_length (A C : List Byte) :
    (hashInput A C).length = 16 * (ceil16 A.length + ceil16 C.length + 1) := by
  simp [hashInput, lengthTrailer, pad16_length]
  omega

/-- The Blocks of the hash input spell it out (rule R170). -/
theorem flatMap_blocksOf_hashInput (A C : List Byte) : (blocksOf (hashInput A C)).flatMap bytesOfBlock = hashInput A C := by
  have len := hashInput_length A C
  exact takeBlocks_flatMap _ _ (by omega)

/-- The keystream taken twice cancels: each byte meets the same keystream byte both times (rules R62, R140). -/
theorem ctrXor_ctrXor (rk : Vector Word 32) (N D : List Byte) :
    ctrXor rk (nonceOfBytes N) (ctrXor rk (nonceOfBytes N) D) = D := by
  refine List.ext_getElem? fun i => ?_
  cases hd : D[i]? with
  | none =>
    have beyond : D.length ≤ i := List.getElem?_eq_none_iff.mp hd
    exact List.getElem?_eq_none (by rwa [ctrXor_length, ctrXor_length])
  | some d => rw [getElem?_ctrXor rk N (getElem?_ctrXor rk N hd), BitVec.xor_assoc, BitVec.xor_self, BitVec.xor_zero]

section
variable {rk : Vector Word 32} {Hk tag : Block} {N : Nonce} {A C : List Byte}

/-- Decryption under the expected tag is counter mode on the ciphertext (rule R174). -/
theorem aeadDecrypt_of_tag_eq (h : tag = aeadTag rk Hk N A C) : aeadDecrypt rk Hk N A C tag = some (ctrXor rk N C) :=
  if_pos ((ctEqual_iff _ _).mpr h.symm)

/-- Decryption under any other tag fails (rule R174). -/
theorem aeadDecrypt_of_tag_ne (h : tag ≠ aeadTag rk Hk N A C) : aeadDecrypt rk Hk N A C tag = none :=
  if_neg fun equal => h ((ctEqual_iff _ _).mp equal).symm

end

section
variable {N A : List Byte} {s : State} {c : KeyContext} (hN : N.length = 12) (hA : A.length ≤ 2 ^ 61 - 1)
  (hs : s.keyCtx = some c)
include hN hA hs

/-- AEADE when no cause of an error applies (rules R173, R175): the ciphertext and its tag. -/
theorem exec_aeade_of_ok {P : List Byte} (hP : P.length ≤ 2 ^ 36 - 32) :
    exec (.aeade N A P) s = .next (s.respond (okFrame [.var (ctrXor c.rk (nonceOfBytes N) P),
      .blk (aeadTag c.rk c.h (nonceOfBytes N) A (ctrXor c.rk (nonceOfBytes N) P))])) :=
  calc exec (.aeade N A P) s = execAeade N A P s := rfl
    _ = _ := by
      rw [execAeade, keyed_some hs, withNonce_of_length hN, withinBounds_of_le hP hA, complete_eq, aeadEncrypt]

variable {C : List Byte} {tag : Block} (hC : C.length ≤ 2 ^ 36 - 32)
include hC

/-- AEADD of operands within the bounds is decided by the decryption alone (rules R174, R176). -/
theorem exec_aeadd_eq_elim : exec (.aeadd N A C tag) s = (aeadDecrypt c.rk c.h (nonceOfBytes N) A C tag).elim
    (raise .authenticationFailure s) fun P => complete [.var P] s := by
  have arm : exec (.aeadd N A C tag) s = execAeadd N A C tag s := rfl
  rw [arm, execAeadd, keyed_some hs, withNonce_of_length hN, withinBounds_of_le hC hA]
  cases aeadDecrypt c.rk c.h (nonceOfBytes N) A C tag with
  | none => rfl
  | some P => rfl

/-- AEADD with the expected tag (rules R174, R176): `OK` and the ciphertext under the keystream. -/
theorem exec_aeadd_of_tag_eq (h : tag = aeadTag c.rk c.h (nonceOfBytes N) A C) :
    exec (.aeadd N A C tag) s = .next (s.respond (okFrame [.var (ctrXor c.rk (nonceOfBytes N) C)])) := by
  rw [exec_aeadd_eq_elim hN hA hs hC, aeadDecrypt_of_tag_eq h, Option.elim_some, complete_eq]

/-- AEADD with any other tag (rules R174, R176): the status alone. -/
theorem exec_aeadd_of_tag_ne (h : tag ≠ aeadTag c.rk c.h (nonceOfBytes N) A C) :
    exec (.aeadd N A C tag) s = raise .authenticationFailure s := by
  rw [exec_aeadd_eq_elim hN hA hs hC, aeadDecrypt_of_tag_ne h, Option.elim_none]

end

/-- Settles O42: the ciphertext is CTRX's, and the tag the hash of the hash input's Blocks XORed with KSB's Block of counter 0. -/
theorem aeadeComposesTheComponents : Obligations.AeadeComposesTheComponents := by
  intro N A P s c hN hP hA hs
  refine ⟨ctrXor c.rk (nonceOfBytes N) P, blocksOf (hashInput A (ctrXor c.rk (nonceOfBytes N) P)),
    tagMask c.rk (nonceOfBytes N), _, ?_, ?_, exec_ksb hN hs 0, exec_ghash .., ?_⟩
  · rw [flatMap_blocksOf_hashInput, hashInput, lengthTrailer, pad16_eq_append_replicate, pad16_eq_append_replicate]
    simp only [List.append_assoc]
  · rw [exec_ctrx_of_ok hN hP hs]
    simp [State.respond, Field.encode, ctrXor_length]
  · rw [exec_aeade_of_ok hN hA hs hP]
    simp [State.respond, Field.encode, ctrXor_length, aeadTag]

/-- Settles O43: under the expected tag AEADD and CTRX answer the same, under any other AEADD raises `AuthenticationFailure`. -/
theorem aeaddAnswersExactlyWhenTheTagMatches : Obligations.AeaddAnswersExactlyWhenTheTagMatches := by
  intro N A C tag s c hN hC hA hs
  refine ⟨fun h => ?_, fun h => exec_aeadd_of_tag_ne hN hA hs hC h⟩
  have answer := exec_aeadd_of_tag_eq hN hA hs hC h
  refine ⟨answer.trans (exec_ctrx_of_ok hN hC hs).symm, ctrXor c.rk (nonceOfBytes N) C, ctrXor_length .., ?_⟩
  rw [answer]
  simp [State.respond, Field.encode, ctrXor_length]

/-- Settles O44: the tag AEADE answers is the one AEADD expects, and the keystream taken twice cancels. -/
theorem aeadRoundTrip : Obligations.AeadRoundTrip := by
  intro N A P s c hN hP hA hs
  have len : (ctrXor c.rk (nonceOfBytes N) P).length = P.length := ctrXor_length ..
  refine ⟨ctrXor c.rk (nonceOfBytes N) P, aeadTag c.rk c.h (nonceOfBytes N) A (ctrXor c.rk (nonceOfBytes N) P), len, ?_,
    fun t ht => ?_⟩
  · rw [exec_aeade_of_ok hN hA hs hP]
    simp [State.respond, Field.encode]
  · rw [exec_aeadd_of_tag_eq hN hA ht (len.trans_le hP) rfl, ctrXor_ctrXor]
    simp [State.respond, Field.encode]

end Sys2Proof.Machine
end

section
/-!
PROOFS. The causes of an error status (60_exceptions.md rules R191 to R195) in the order of rule R197: the answer of a command reports
the first cause that applies, `OK` when none does, and an answer tells its cause.
-/
namespace Sys2Proof.Machine

/-- The cause of `NotScheduled` (rule R195). -/
def Unscheduled (i : Instr) (s : State) : Prop := i.op.keyed = true ∧ s.keyCtx = none

/-- The cause of `InvalidKeyLength` (rule R191). -/
def WrongKeyLength (i : Instr) : Prop := ∃ key, i = .ksched key ∧ key.length ≠ 16

/-- The cause of `InvalidNonceLength` (rule R192). -/
def WrongNonceLength (i : Instr) : Prop := ∃ N, i.nonce? = some N ∧ N.length ≠ 12

/-- `e` is the code of a wrong operand length that the command has: the third place in the order of rule R197. -/
def WrongLength (i : Instr) (e : Byte) : Prop := (e = 0x01 ∧ WrongKeyLength i) ∨ (e = 0x02 ∧ WrongNonceLength i)

/-- The cause of `MessageTooLong` (rule R194). -/
def TooLong (i : Instr) : Prop :=
  (∃ D, i.data? = some D ∧ 2 ^ 36 - 32 < D.length) ∨ (∃ A, i.aad? = some A ∧ 2 ^ 61 - 1 < A.length)

/-- The cause of `AuthenticationFailure` (rule R193). -/
def WrongTag (i : Instr) (s : State) : Prop :=
  ∃ N A C tag c, i = .aeadd N A C tag ∧ s.keyCtx = some c ∧ tag ≠ aeadTag c.rk c.h (nonceOfBytes N) A C

/-- The status that rule R197 makes a command report: that of the first cause that applies, `OK` when none does. Each constructor
has the causes before its own as not applying. -/
inductive FirstCause (i : Instr) (s : State) : Status → Prop
  | notScheduled (cause : Unscheduled i s) : FirstCause i s .notScheduled
  | invalidKeyLength (sched : ¬ Unscheduled i s) (cause : WrongKeyLength i) : FirstCause i s .invalidKeyLength
  | invalidNonceLength (sched : ¬ Unscheduled i s) (key : ¬ WrongKeyLength i) (cause : WrongNonceLength i) :
      FirstCause i s .invalidNonceLength
  | messageTooLong (sched : ¬ Unscheduled i s) (key : ¬ WrongKeyLength i) (nonce : ¬ WrongNonceLength i)
      (cause : TooLong i) : FirstCause i s .messageTooLong
  | authenticationFailure (sched : ¬ Unscheduled i s) (key : ¬ WrongKeyLength i) (nonce : ¬ WrongNonceLength i)
      (bounds : ¬ TooLong i) (cause : WrongTag i s) : FirstCause i s .authenticationFailure
  | ok (sched : ¬ Unscheduled i s) (key : ¬ WrongKeyLength i) (nonce : ¬ WrongNonceLength i)
      (bounds : ¬ TooLong i) (tag : ¬ WrongTag i s) : FirstCause i s .ok

/-- The first cause is found by asking for each in turn. -/
theorem exists_firstCause (i : Instr) (s : State) : ∃ st, FirstCause i s st := by
  by_cases sched : Unscheduled i s
  · exact ⟨_, .notScheduled sched⟩
  by_cases key : WrongKeyLength i
  · exact ⟨_, .invalidKeyLength sched key⟩
  by_cases nonce : WrongNonceLength i
  · exact ⟨_, .invalidNonceLength sched key nonce⟩
  by_cases bounds : TooLong i
  · exact ⟨_, .messageTooLong sched key nonce bounds⟩
  by_cases tag : WrongTag i s
  · exact ⟨_, .authenticationFailure sched key nonce bounds tag⟩
  · exact ⟨_, .ok sched key nonce bounds tag⟩

section
variable {i : Instr} {s : State} {N : List Byte}

theorem keyed_of_nonce (hN : i.nonce? = some N) : i.op.keyed = true := by
  cases i with
  | ksb | ctrx | aeade | aeadd => rfl
  | sbox | diff | cxf | ksched | encb | decb | gfmul | ghash => cases hN

theorem exists_context_of_not_unscheduled (h : ¬ Unscheduled i s) (hk : i.op.keyed = true) :
    ∃ c, s.keyCtx = some c := Option.ne_none_iff_exists'.mp fun noCtx => h ⟨hk, noCtx⟩

theorem length_of_not_wrongKeyLength {key : List Byte} (h : ¬ WrongKeyLength (.ksched key)) : key.length = 16 :=
  not_not.mp fun ne => h ⟨key, rfl, ne⟩

theorem length_of_not_wrongNonceLength (h : ¬ WrongNonceLength i) (hN : i.nonce? = some N) : N.length = 12 :=
  not_not.mp fun ne => h ⟨N, hN, ne⟩

theorem data_length_le {D : List Byte} (h : ¬ TooLong i) (hD : i.data? = some D) : D.length ≤ 2 ^ 36 - 32 :=
  not_lt.mp fun lt => h (.inl ⟨D, hD, lt⟩)

theorem aad_length_le {A : List Byte} (h : ¬ TooLong i) (hA : i.aad? = some A) : A.length ≤ 2 ^ 61 - 1 :=
  not_lt.mp fun lt => h (.inr ⟨A, hA, lt⟩)

/-- A command with a nonce operand has no key operand. -/
theorem not_wrongKeyLength_of_nonce (hN : i.nonce? = some N) : ¬ WrongKeyLength i := by
  rintro ⟨key, rfl, -⟩
  cases hN

theorem not_wrongLength (key : ¬ WrongKeyLength i) (nonce : ¬ WrongNonceLength i) (e : Byte) : ¬ WrongLength i e :=
  fun h => h.elim (fun wrong => key wrong.2) fun wrong => nonce wrong.2

/-- The bounds limit CTRX, AEADE and AEADD only (rule R194). -/
theorem tooLong_iff : TooLong i ↔ (∃ N D, i = .ctrx N D ∧ 2 ^ 36 - 32 < D.length) ∨
    (∃ N A P, i = .aeade N A P ∧ (2 ^ 36 - 32 < P.length ∨ 2 ^ 61 - 1 < A.length)) ∨
    ∃ N A C tag, i = .aeadd N A C tag ∧ (2 ^ 36 - 32 < C.length ∨ 2 ^ 61 - 1 < A.length) := by
  cases i <;> simp [TooLong, Instr.data?, Instr.aad?]

theorem keyed_withNonce_withinBounds_of_lt {D A : List Byte} {c : KeyContext} (hs : s.keyCtx = some c)
    (len : N.length = 12) (long : 2 ^ 36 - 32 < D.length ∨ 2 ^ 61 - 1 < A.length) (go : KeyContext → Nonce → Answer) :
    (keyed s fun c => withNonce N s fun n => withinBounds D A s (go c n)) = raise .messageTooLong s :=
  calc _ = withinBounds D A s (go c (nonceOfBytes N)) := by rw [keyed_some hs, withNonce_of_length len]
    _ = _ := withinBounds_of_lt long s _

/-- With a context installed and a 12-byte nonce, a length over its bound raises `MessageTooLong` (rule R194). -/
theorem exec_of_tooLong (hN : i.nonce? = some N) (len : N.length = 12) {c : KeyContext} (hs : s.keyCtx = some c)
    (h : TooLong i) : exec i s = raise .messageTooLong s := by
  obtain ⟨N, D, rfl, long⟩ | ⟨N, A, P, rfl, long⟩ | ⟨N, A, C, tag, rfl, long⟩ := tooLong_iff.mp h <;> cases hN
  · exact keyed_withNonce_withinBounds_of_lt hs len (.inl long) _
  · exact keyed_withNonce_withinBounds_of_lt hs len long _
  · exact keyed_withNonce_withinBounds_of_lt hs len long _

theorem exists_nonce_of_tooLong (h : TooLong i) : ∃ N, i.nonce? = some N := by
  obtain ⟨N, D, rfl, -⟩ | ⟨N, A, P, rfl, -⟩ | ⟨N, A, C, tag, rfl, -⟩ := tooLong_iff.mp h <;> exact ⟨N, rfl⟩

/-- A command with a cause of an error answers the status of the first one and changes nothing else (rules R197, R199). -/
theorem exec_of_firstCause {st : Status} (h : FirstCause i s st) (ne : st ≠ .ok) : exec i s = raise st s := by
  cases h with
  | notScheduled cause => exact exec_keyed_of_no_context cause.2 cause.1
  | invalidKeyLength _ cause =>
    obtain ⟨key, rfl, len⟩ := cause
    exact exec_ksched_of_length_ne len s
  | invalidNonceLength sched _ cause =>
    obtain ⟨N, hN, len⟩ := cause
    exact exec_of_nonce_length_ne hN len fun noCtx => sched ⟨keyed_of_nonce hN, noCtx⟩
  | messageTooLong sched _ nonce cause =>
    obtain ⟨N, hN⟩ := exists_nonce_of_tooLong cause
    obtain ⟨c, hs⟩ := exists_context_of_not_unscheduled sched (keyed_of_nonce hN)
    exact exec_of_tooLong hN (length_of_not_wrongNonceLength nonce hN) hs cause
  | authenticationFailure _ _ nonce bounds cause =>
    obtain ⟨N, A, C, tag, c, rfl, hs, hne⟩ := cause
    exact exec_aeadd_of_tag_ne (length_of_not_wrongNonceLength nonce rfl) (aad_length_le bounds rfl) hs
      (data_length_le bounds rfl) hne
  | ok => exact absurd rfl ne

/-- A command with no cause of an error answers `OK` (rule R197). -/
theorem exec_of_no_cause (h : FirstCause i s .ok) : ∃ (ctx : Option KeyContext) (fields : List Field),
    exec i s = .next { s with keyCtx := ctx, responses := s.responses ++ [okFrame fields] } := by
  obtain - | - | - | - | - | ⟨sched, key, nonce, bounds, htag⟩ := h
  have context := exists_context_of_not_unscheduled sched
  cases i with
  | sbox | diff | cxf | gfmul | ghash => exact ⟨s.keyCtx, _, rfl⟩
  | ksched K => exact ⟨_, [], exec_ksched_of_length (length_of_not_wrongKeyLength key) s⟩
  | encb B =>
    obtain ⟨c, hs⟩ := context rfl
    exact ⟨s.keyCtx, [.blk (encWith c.rk B)], keyed_some hs _⟩
  | decb B =>
    obtain ⟨c, hs⟩ := context rfl
    exact ⟨s.keyCtx, [.blk (decWith c.rk B)], keyed_some hs _⟩
  | ksb N ctr =>
    obtain ⟨c, hs⟩ := context rfl
    exact ⟨s.keyCtx, [.blk (ksBlock c.rk (nonceOfBytes N) ctr)],
      (keyed_some hs _).trans (withNonce_of_length (length_of_not_wrongNonceLength nonce rfl) s _)⟩
  | ctrx N D =>
    obtain ⟨c, hs⟩ := context rfl
    exact ⟨s.keyCtx, _, exec_ctrx_of_ok (length_of_not_wrongNonceLength nonce rfl) (data_length_le bounds rfl) hs⟩
  | aeade N A P =>
    obtain ⟨c, hs⟩ := context rfl
    exact ⟨s.keyCtx, _, exec_aeade_of_ok (length_of_not_wrongNonceLength nonce rfl) (aad_length_le bounds rfl) hs
      (data_length_le bounds rfl)⟩
  | aeadd N A C tag =>
    obtain ⟨c, hs⟩ := context rfl
    have expected : tag = aeadTag c.rk c.h (nonceOfBytes N) A C :=
      not_not.mp fun ne => htag ⟨N, A, C, tag, c, rfl, hs, ne⟩
    exact ⟨s.keyCtx, _, exec_aeadd_of_tag_eq (length_of_not_wrongNonceLength nonce rfl) (aad_length_le bounds rfl) hs
      (data_length_le bounds rfl) expected⟩

/-- The answer begins with the code of the first cause. -/
theorem exec_reports_firstCause {st : Status} (h : FirstCause i s st) : ∃ (ctx : Option KeyContext) (tail : List Byte),
    exec i s = .next { s with keyCtx := ctx, responses := s.responses ++ [st.code :: tail] } := by
  by_cases ok : st = .ok
  · subst ok
    obtain ⟨ctx, fields, e⟩ := exec_of_no_cause h
    exact ⟨ctx, _, e⟩
  · exact ⟨s.keyCtx, [], exec_of_firstCause h ok⟩

theorem code_injective : Function.Injective Status.code :=
  Function.LeftInverse.injective (g := fun b => Status.ofNat b.toNat) fun st => by cases st <;> rfl

/-- An answer that begins with the code of a status tells that this is the status of the first cause. -/
theorem firstCause_of_exec {t : State} {st : Status} {tail : List Byte} (h : exec i s = .next t)
    (ht : t.responses = s.responses ++ [st.code :: tail]) : FirstCause i s st := by
  obtain ⟨st', cause⟩ := exists_firstCause i s
  obtain ⟨ctx, tail', e⟩ := exec_reports_firstCause cause
  cases e.symm.trans h
  have frames : st'.code :: tail' = st.code :: tail := by simpa using ht
  rwa [← code_injective (List.head_eq_of_cons_eq frames)]

end

/-- Settles O13: the answer tells the first cause, and a command with a cause, like a frame that does not decode, only adds the
status byte. -/
theorem errorsLeaveNoTrace : Obligations.ErrorsLeaveNoTrace := by
  intro s t F rest st tail h ht ne
  cases hd : decode F with
  | error e =>
    cases (step_of_decode_error rfl hd).symm.trans h
    have frames : [Status.illegalCommand.code] = st.code :: tail := by simpa using ht
    rw [← List.head_eq_of_cons_eq frames]
    rfl
  | ok i =>
    have answer := (step_of_decode_ok rfl hd).symm.trans h
    exact Host.Outcome.next.inj (answer.symm.trans (exec_of_firstCause (firstCause_of_exec answer ht) ne))

/-- Settles O19: the answer reports the first cause, and each first cause excludes the ones before it. -/
theorem firstCauseIsReported : Obligations.FirstCauseIsReported := by
  intro s F rest
  cases hd : decode F with
  | error e =>
    have raised := step_of_decode_error (s := { s with inputs := .command F :: rest }) rfl hd
    exact ⟨s.keyCtx, _, [], raised, fun _ _ => rfl, fun i hi => nomatch hi⟩
  | ok i =>
    obtain ⟨st, cause⟩ := exists_firstCause i { s with inputs := rest }
    obtain ⟨ctx, tail, e⟩ := exec_reports_firstCause cause
    refine ⟨ctx, st.code, tail, (step_of_decode_ok rfl hd).trans e, fun e he => (nomatch he), fun j hj => ?_⟩
    cases hj
    cases cause with
    | notScheduled cause => exact ⟨fun _ => rfl, fun sched => absurd cause sched⟩
    | invalidKeyLength sched cause =>
      refine ⟨fun h => absurd h sched, fun _ => ⟨fun e he => ?_, fun allRight => absurd (.inl ⟨rfl, cause⟩) (allRight 0x01)⟩⟩
      obtain ⟨rfl, -⟩ | ⟨-, N, hN, -⟩ := (he : WrongLength i e)
      · rfl
      · exact absurd cause (not_wrongKeyLength_of_nonce hN)
    | invalidNonceLength sched key cause =>
      refine ⟨fun h => absurd h sched, fun _ => ⟨fun e he => ?_, fun allRight => absurd (.inr ⟨rfl, cause⟩) (allRight 0x02)⟩⟩
      obtain ⟨-, wrongKey⟩ | ⟨rfl, -⟩ := (he : WrongLength i e)
      · exact absurd wrongKey key
      · rfl
    | messageTooLong sched key nonce cause =>
      exact ⟨fun h => absurd h sched, fun _ => ⟨fun e he => absurd he (not_wrongLength key nonce e), fun _ =>
        ⟨fun _ => rfl, fun bounds => absurd cause bounds⟩⟩⟩
    | authenticationFailure sched key nonce bounds cause =>
      exact ⟨fun h => absurd h sched, fun _ => ⟨fun e he => absurd he (not_wrongLength key nonce e), fun _ =>
        ⟨fun h => absurd h bounds, fun _ => ⟨fun _ => rfl, fun right => absurd cause right⟩⟩⟩⟩
    | ok sched key nonce bounds right =>
      exact ⟨fun h => absurd h sched, fun _ => ⟨fun e he => absurd he (not_wrongLength key nonce e), fun _ =>
        ⟨fun h => absurd h bounds, fun _ => ⟨fun h => absurd h right, fun _ => rfl⟩⟩⟩⟩

/-- Settles O20: a wrong key length is the first cause for KSCHED, which needs no context, and the answer tells the cause. -/
theorem invalidKeyLengthExactlyWhen : Obligations.InvalidKeyLengthExactlyWhen := by
  refine ⟨fun key s len => exec_ksched_of_length_ne len s, fun i s t tail h ht => ?_⟩
  obtain - | ⟨-, cause⟩ := firstCause_of_exec (st := .invalidKeyLength) h ht
  exact cause

/-- Settles O21: a wrong nonce length is the first cause once a context is installed, and the answer tells the cause. -/
theorem invalidNonceLengthExactlyWhen : Obligations.InvalidNonceLengthExactlyWhen := by
  refine ⟨fun i N s hs hi hN => exec_of_nonce_length_ne hi hN hs, fun i => ?_, fun i s t tail h ht => ?_⟩
  · cases i <;> simp [Instr.nonce?, Instr.op]
  · obtain - | - | ⟨-, -, cause⟩ := firstCause_of_exec (st := .invalidNonceLength) h ht
    exact cause

/-- Settles O22: the answer tells that no earlier cause applies and that a length is over its bound. -/
theorem messageTooLongExactlyWhen : Obligations.MessageTooLongExactlyWhen := by
  intro i s
  constructor
  · intro h
    obtain - | - | - | ⟨sched, -, nonce, cause⟩ := firstCause_of_exec (st := .messageTooLong) h rfl
    obtain ⟨N, hN⟩ := exists_nonce_of_tooLong cause
    exact ⟨fun noCtx => sched ⟨keyed_of_nonce hN, noCtx⟩, ⟨N, hN, length_of_not_wrongNonceLength nonce hN⟩,
      tooLong_iff.mp cause⟩
  · rintro ⟨hs, ⟨N, hN, len⟩, long⟩
    obtain ⟨c, hc⟩ := Option.ne_none_iff_exists'.mp hs
    exact exec_of_tooLong hN len hc (tooLong_iff.mpr long)

/-- The keyed commands (rules R19, R195). -/
theorem keyed_iff_mem (op : Op) : op.keyed = true ↔ op ∈ [Op.encb, .decb, .ksb, .ctrx, .aeade, .aeadd] := by
  cases op <;> decide

/-- Settles O23: `NotScheduled` is reported for its own cause only, and that cause comes before every other. -/
theorem notScheduledExactlyWhen : Obligations.NotScheduledExactlyWhen := by
  intro i s
  rw [← keyed_iff_mem, sched_eq_false_iff]
  constructor
  · intro h
    obtain ⟨cause⟩ := firstCause_of_exec (st := .notScheduled) h rfl
    exact cause
  · exact fun ⟨hk, noCtx⟩ => exec_keyed_of_no_context noCtx hk

end Sys2Proof.Machine
end

section
/-!
PROOFS. Frames and commands (30_encoding.md sections 1, 2, 4 and 6): decoder and encoder agree in both directions, and what a step
does with a frame that starts with a reserved opcode, with a reset and with nothing.
-/
namespace Sys2Proof.Machine

/-- Settles O2: the decoder reads back the fields of a well-formed command, one after the other (`readOperands_fields`). -/
theorem decodeInvertsEncode : Obligations.DecodeInvertsEncode := fun _ wf => decode_encode wf

/-- Settles O3: what each reader accepts is what the encoder writes for its field (`readOperands_readsAs`). -/
theorem encodeInvertsDecode : Obligations.EncodeInvertsDecode := fun _ _ h => encode_of_decode_ok h

/-- Settles O1: the four byte strings are the frames of well-formed commands. -/
theorem workedFramesDecodeToTheirCommands : Obligations.WorkedFramesDecodeToTheirCommands := by
  have decodes {F : Frame} {i : Instr} (frame : encode i = F) (wf : i.wellFormed = true) : decode F = .ok i :=
    frame ▸ decode_encode wf
  exact ⟨decodes (by decide) (by decide), decodes (by decide) (by decide), decodes (by decide) (by decide),
    decodes (by decide) (by decide)⟩

/-- Settles O4: no reserved byte is the code of an operation, so a frame that starts with one decodes to no command. -/
theorem reservedOpcodesAreIllegal : Obligations.ReservedOpcodesAreIllegal :=
  ⟨by decide +kernel, by decide, by decide, fun _ bs s rest hb => step_of_decode_ne_ok (decode_ne_ok_of_reserved hb bs) s rest⟩

/-- Settles O6: the step takes the frame off the list and executes the command it decodes to. -/
theorem stepRunsTheDecodedCommand : Obligations.StepRunsTheDecodedCommand := fun _ _ _ _ hd => step_of_decode_ok rfl hd

/-- With nothing presented a step changes nothing (rule R222). -/
theorem step_of_no_inputs {s : State} (h : s.inputs = []) : step s = .next s := by
  simp [step, h, idle]

/-- Settles O7: with nothing presented the step is `idle`. -/
theorem nothingPresentedNothingExecuted : Obligations.NothingPresentedNothingExecuted := fun _ => step_of_no_inputs

/-- A command never takes the key context away (rules R29, R220). -/
theorem sched_of_exec {i : Instr} {s t : State} (h : exec i s = .next t) (hs : s.sched = true) : t.sched = true := by
  obtain ⟨st, -, e⟩ | ⟨fields, -, -, e⟩ | ⟨key, -, -, e⟩ := exec_answers i s <;> cases e.symm.trans h
  · exact hs
  · exact hs
  · rfl

/-- Settles O9: of what a step can do, only a reset clears `SCHED`. -/
theorem resetAloneClearsTheKeyContext : Obligations.ResetAloneClearsTheKeyContext := by
  refine ⟨fun s rest => rfl, fun s t h hs ht => ?_⟩
  have lost : t.sched ≠ true := ht ▸ Bool.false_ne_true
  cases step_cases s with
  | idle none e =>
    cases e.symm.trans h
    exact absurd hs lost
  | reset rest input e => exact ⟨rest, input⟩
  | illegal F rest err input dec e =>
    cases e.symm.trans h
    exact absurd hs lost
  | command F rest i input dec e => exact absurd (sched_of_exec (e.symm.trans h) hs) lost

end Sys2Proof.Machine
end

section
/-!
PROOFS. The invariant (10_state.md rule R29, 60_exceptions.md rule R190): a legal response and the context of a key keep it, and a step
does nothing else.
-/
namespace Sys2Proof.Machine

/-- A status byte alone is a legal response (rule R190). -/
theorem legalResponse_code (st : Status) : legalResponse [st.code] = true := by
  cases st <;> decide

/-- So is `OK` with any result fields (rule R71). -/
theorem legalResponse_okFrame (fields : List Field) : legalResponse (okFrame fields) = true := by
  simp [legalResponse]

/-- Without a context and without responses there is nothing to keep. -/
theorem inv_of_no_context {s : State} (ctx : s.keyCtx = none) (out : s.responses = []) : s.Inv :=
  ⟨by simp [ctx], by simp [out]⟩

section
variable {s : State}

theorem inv_respond (h : s.Inv) {R : Frame} (legal : legalResponse R = true) : (s.respond R).Inv := by
  obtain ⟨ctx, out⟩ := h
  refine ⟨ctx, fun F hF => ?_⟩
  obtain old | new := List.mem_append.mp hF
  · exact out F old
  · rwa [List.mem_singleton.mp new]

theorem inv_install (h : s.Inv) {c : KeyContext} (hc : c.ofOneKey) : (s.install c).Inv := by
  refine ⟨fun c' hc' => ?_, h.2⟩
  cases hc'
  exact hc

/-- The invariant does not speak of what the host still presents. -/
theorem inv_inputs (h : s.Inv) (rest : List HostInput) : { s with inputs := rest }.Inv := h

/-- Every command keeps the invariant: it raises a status, completes, or installs the context of a key and completes. -/
theorem inv_of_exec (h : s.Inv) {i : Instr} {t : State} (e : exec i s = .next t) : t.Inv := by
  cases exec_answers i s with
  | raised st mem eq =>
    cases eq.symm.trans e
    exact inv_respond h (legalResponse_code st)
  | completed fields kinds op eq =>
    cases eq.symm.trans e
    exact inv_respond h (legalResponse_okFrame fields)
  | scheduled key cmd len eq =>
    cases eq.symm.trans e
    exact inv_respond (inv_install h (contextOfKey_ofOneKey _)) (legalResponse_okFrame [])

end

/-- Settles O16: each of the four things a step can do keeps the invariant. -/
theorem stepKeepsContextAndResponsesLegal : Obligations.StepKeepsContextAndResponsesLegal := by
  intro s t h e
  cases step_cases s with
  | idle none eq =>
    cases eq.symm.trans e
    exact h
  | reset rest input eq =>
    cases eq.symm.trans e
    exact inv_of_no_context rfl rfl
  | illegal F rest err input dec eq =>
    cases eq.symm.trans e
    exact inv_respond (inv_inputs h rest) (legalResponse_code .illegalCommand)
  | command F rest i input dec eq => exact inv_of_exec (inv_inputs h rest) (eq.symm.trans e)

/-- Settles O17: the reset state has no context and no response. -/
theorem resetMeetsTheInvariant : Obligations.ResetMeetsTheInvariant := inv_of_no_context rfl rfl

/-- The counter block of the zero nonce and counter 0 is the zero Block (rule R135). -/
theorem ctrBlock_zero : ctrBlock (nonceOfBytes (List.replicate 12 0)) 0 = 0 := by decide

/-- Settles O18: `H` is the enciphered zero Block, and KSB enciphers the zero Block too. -/
theorem hashSubkeyIsEncryptionOfZero : Obligations.HashSubkeyIsEncryptionOfZero := by
  intro s c inv hs
  obtain ⟨key, -, hash⟩ := inv.1 c hs
  refine ⟨?_, ?_⟩
  · rw [exec_encb hs, hash, State.respond]
  · rw [exec_ksb (List.length_replicate ..) hs, ksBlock, ctrBlock_zero, hash, State.respond]

end Sys2Proof.Machine
end

section
/-!
PROOFS. What an answer depends on (20_memory.md rules R65, R66, 70_reset_and_hazards.md rules R224, R236): the command and the key
context, and for the unkeyed commands the command alone.
-/
namespace Sys2Proof.Machine

/-- Two states are answered with one response, and both get one key context. -/
def AnsweredAlike (s t : State) (a b : Answer) : Prop :=
  ∃ (ctx : Option KeyContext) (R : Frame), a = .next { s with keyCtx := ctx, responses := s.responses ++ [R] } ∧
    b = .next { t with keyCtx := ctx, responses := t.responses ++ [R] }

section
variable {s t : State} (same : s.keyCtx = t.keyCtx)
include same

theorem answeredAlike_respond (R : Frame) : AnsweredAlike s t (.next (s.respond R)) (.next (t.respond R)) :=
  ⟨s.keyCtx, R, rfl, by rw [same]; rfl⟩

theorem answeredAlike_raise (st : Status) : AnsweredAlike s t (raise st s) (raise st t) := answeredAlike_respond same _

theorem answeredAlike_complete (fields : List Field) : AnsweredAlike s t (complete fields s) (complete fields t) :=
  answeredAlike_respond same _

theorem answeredAlike_keyed {go go' : KeyContext → Answer} (h : ∀ c, AnsweredAlike s t (go c) (go' c)) :
    AnsweredAlike s t (keyed s go) (keyed t go') := by
  cases ctx : s.keyCtx with
  | none => simpa only [keyed_none ctx, keyed_none (same ▸ ctx)] using answeredAlike_raise same .notScheduled
  | some c => simpa only [keyed_some ctx, keyed_some (same ▸ ctx)] using h c

theorem answeredAlike_withKey (key : List Byte) {go go' : Block → Answer} (h : ∀ k, AnsweredAlike s t (go k) (go' k)) :
    AnsweredAlike s t (withKey key s go) (withKey key t go') := by
  by_cases len : key.length = 16
  · simpa only [withKey_of_length len] using h _
  · simpa only [withKey_of_length_ne len] using answeredAlike_raise same .invalidKeyLength

theorem answeredAlike_withNonce (nonce : List Byte) {go go' : Nonce → Answer}
    (h : ∀ N, AnsweredAlike s t (go N) (go' N)) : AnsweredAlike s t (withNonce nonce s go) (withNonce nonce t go') := by
  by_cases len : nonce.length = 12
  · simpa only [withNonce_of_length len] using h _
  · simpa only [withNonce_of_length_ne len] using answeredAlike_raise same .invalidNonceLength

theorem answeredAlike_withinBounds (data aad : List Byte) {go go' : Answer} (h : AnsweredAlike s t go go') :
    AnsweredAlike s t (withinBounds data aad s go) (withinBounds data aad t go') := by
  by_cases long : 2 ^ 36 - 32 < data.length ∨ 2 ^ 61 - 1 < aad.length
  · simpa only [withinBounds_of_lt long] using answeredAlike_raise same .messageTooLong
  · obtain ⟨hd, ha⟩ := not_or.mp long
    simpa only [withinBounds_of_le (not_lt.mp hd) (not_lt.mp ha)] using h

/-- Every command answers states of one key context alike (rule R66). -/
theorem exec_answeredAlike (i : Instr) : AnsweredAlike s t (exec i s) (exec i t) := by
  cases i with
  | sbox | diff | cxf | gfmul | ghash => exact answeredAlike_complete same _
  | ksched key => exact answeredAlike_withKey same key fun k => ⟨some (contextOfKey k), okFrame [], rfl, rfl⟩
  | encb | decb => exact answeredAlike_keyed same fun c => answeredAlike_complete same _
  | ksb nonce ctr =>
    exact answeredAlike_keyed same fun c => answeredAlike_withNonce same nonce fun N => answeredAlike_complete same _
  | ctrx nonce data =>
    exact answeredAlike_keyed same fun c => answeredAlike_withNonce same nonce fun N =>
      answeredAlike_withinBounds same data [] (answeredAlike_complete same _)
  | aeade nonce aad pt =>
    exact answeredAlike_keyed same fun c => answeredAlike_withNonce same nonce fun N =>
      answeredAlike_withinBounds same pt aad (answeredAlike_complete same _)
  | aeadd nonce aad ct tag =>
    refine answeredAlike_keyed same fun c => answeredAlike_withNonce same nonce fun N =>
      answeredAlike_withinBounds same ct aad ?_
    cases aeadDecrypt c.rk c.h N aad ct tag with
    | none => exact answeredAlike_raise same .authenticationFailure
    | some pt => exact answeredAlike_complete same _

/-- So does a step with any frame, legal or not (rule R236). -/
theorem step_answeredAlike (F : Frame) (rest : List HostInput) : AnsweredAlike { s with inputs := rest }
    { t with inputs := rest } (step { s with inputs := .command F :: rest }) (step { t with inputs := .command F :: rest }) := by
  cases hd : decode F with
  | error e =>
    rw [step_of_decode_error rfl hd, step_of_decode_error rfl hd]
    exact answeredAlike_raise (s := { s with inputs := rest }) (t := { t with inputs := rest }) same .illegalCommand
  | ok i =>
    rw [step_of_decode_ok rfl hd, step_of_decode_ok rfl hd]
    exact exec_answeredAlike (s := { s with inputs := rest }) (t := { t with inputs := rest }) same i

end

/-- Settles O14: a command that leaves the key context finds the same one when repeated, and a KSCHED repeated installs the
context of the same key. -/
theorem commandsAreIdempotent : Obligations.CommandsAreIdempotent := by
  intro i s t h
  by_cases hk : ∃ key, i = .ksched key ∧ key.length = 16
  · obtain ⟨key, rfl, len⟩ := hk
    cases (exec_ksched_of_length len s).symm.trans h
    exact ⟨_, rfl, exec_ksched_of_length len _⟩
  · obtain ⟨R, e⟩ := exec_of_not_ksched (s := s) fun key cmd len => hk ⟨key, cmd, len⟩
    cases e.symm.trans h
    obtain ⟨ctx, R', e', again⟩ := exec_answeredAlike (s := s) (t := s.respond R) rfl i
    have first : s.respond R = { s with keyCtx := ctx, responses := s.responses ++ [R'] } :=
      Host.Outcome.next.inj (e.symm.trans e')
    have context : s.keyCtx = ctx := congrArg State.keyCtx first
    exact ⟨R', congrArg State.responses first, again.trans (by rw [← context]; rfl)⟩

/-- Settles O15: by induction on the steps; each frame is answered alike, and with no frame left both runs stand still. -/
theorem equalContextsAreIndistinguishable : Obligations.EqualContextsAreIndistinguishable := by
  intro frames n s t same
  induction n generalizing frames s t with
  | zero => exact ⟨s.keyCtx, frames.map .command, [], by simp [core_run_zero], by simp [core_run_zero, same]⟩
  | succ n ih =>
    cases frames with
    | nil =>
      rw [core_run_succ (step_of_no_inputs rfl), core_run_succ (step_of_no_inputs rfl)]
      exact ih [] s t same
    | cons F frames =>
      obtain ⟨ctx, R, hs, ht⟩ := step_answeredAlike same F (frames.map .command)
      obtain ⟨ctx', rest, out, runS, runT⟩ := ih frames { s with keyCtx := ctx, responses := s.responses ++ [R] }
        { t with keyCtx := ctx, responses := t.responses ++ [R] } rfl
      rw [List.append_assoc] at runS runT
      exact ⟨ctx', rest, [R] ++ out, (core_run_succ hs n).trans runS, (core_run_succ ht n).trans runT⟩

/-- Settles O49: each of the five completes with fields that its operands alone determine. -/
theorem unkeyedCommandsIgnoreTheContext : Obligations.UnkeyedCommandsIgnoreTheContext := by
  intro i hi
  cases i with
  | sbox | diff | cxf | gfmul | ghash => exact ⟨_, fun s => rfl⟩
  | ksched | encb | decb | ksb | ctrx | aeade | aeadd => simp [Instr.op] at hi

end Sys2Proof.Machine
end

section
/-!
PROOFS. Laws of the diffusion and of the compound transform (40_sbox_diffusion.md section 3, rules R97, R98): `L` is linear and its fourth
iterate a rotation, `T` substitutes byte by byte, and CXF answers the sum of four fused-table entries.
-/
namespace Sys2Proof.Machine

/-- `L` is linear (rule R97). -/
theorem diffuse_xor (a b : Word) : diffuse (a ^^^ b) = diffuse a ^^^ diffuse b := by
  simp only [diffuse, rotateLeft_xor]
  ac_rfl

/-- `L` commutes with every rotation (rule R97). -/
theorem diffuse_rotateLeft (x : Word) (k : Nat) : diffuse (x.rotateLeft k) = (diffuse x).rotateLeft k := by
  simp only [diffuse, rotateLeft_xor, rotateLeft_rotateLeft, Nat.add_comm]

theorem rotateLeft_zero (x : Word) : x.rotateLeft 0 = x := by
  apply BitVec.eq_of_getLsbD_eq
  intro i hi
  rw [getLsbD_rotateLeft_word _ _ _ hi]
  simp [Nat.mod_eq_of_lt hi]

theorem xor_left_comm (a b c : Word) : a ^^^ (b ^^^ c) = b ^^^ (a ^^^ c) := by ac_rfl

theorem xor_xor_cancel_left (a b : Word) : a ^^^ (a ^^^ b) = b := by
  rw [← BitVec.xor_assoc, BitVec.xor_self, BitVec.zero_xor]

/-- As a polynomial in the rotation by one, `L` is `1 + x^2 + x^10 + x^18 + x^24` modulo `x^32 + 1`; its square has the exponents
doubled, two of which become equal and cancel. -/
theorem diffuse_diffuse (x : Word) : diffuse (diffuse x) = x ^^^ x.rotateLeft 16 ^^^ x.rotateLeft 20 := by
  simp only [diffuse, rotateLeft_xor, rotateLeft_rotateLeft, Nat.reduceAdd, Nat.reduceMod]
  simp only [BitVec.xor_comm, xor_left_comm, BitVec.xor_assoc, BitVec.xor_self, BitVec.zero_xor, xor_xor_cancel_left]

/-- The exponents doubled once more leave one: `L` four times is a rotation by 8. -/
theorem diffuse_iterate_four (x : Word) : diffuse^[4] x = x.rotateLeft 8 := by
  have iterate : diffuse^[4] x = diffuse (diffuse (diffuse (diffuse x))) := rfl
  simp only [iterate, diffuse_diffuse, rotateLeft_xor, rotateLeft_rotateLeft, Nat.reduceAdd, Nat.reduceMod, rotateLeft_zero]
  simp only [BitVec.xor_comm, xor_left_comm, BitVec.xor_assoc, BitVec.xor_self, BitVec.zero_xor, xor_xor_cancel_left]

/-- `L` is a bijection: four times, and rotated back, it is the identity (rule R97). -/
theorem diffuse_bijective : Function.Bijective diffuse := by
  have undo : Function.LeftInverse (fun y => (diffuse^[3] y).rotateLeft 24) diffuse := fun x =>
    calc (diffuse^[4] x).rotateLeft 24 = x.rotateLeft 0 := by rw [diffuse_iterate_four, rotateLeft_rotateLeft]
      _ = x := rotateLeft_zero x
  exact Finite.injective_iff_bijective.mp undo.injective

/-- A word put together from four bytes is their big-endian word (rules R8, R56). -/
theorem append_eq_be32 (a b c d : Byte) : a ++ b ++ c ++ d = be32 [a, b, c, d] := by
  apply BitVec.eq_of_toNat_eq
  have ha := a.isLt
  have hb := b.isLt
  have hc := c.isLt
  have hd := d.isLt
  simp only [BitVec.toNat_append, be32, beNat, List.foldl, BitVec.toNat_ofNat]
  rw [← Nat.shiftLeft_add_eq_or_of_lt hd, ← Nat.shiftLeft_add_eq_or_of_lt hc, ← Nat.shiftLeft_add_eq_or_of_lt hb]
  simp only [Nat.shiftLeft_eq]
  omega

/-- The same word as a sum of the bytes, each in its place (rule R98). -/
theorem append_eq_xor (a b c d : Byte) : a ++ b ++ c ++ d =
    a.setWidth 32 <<< 24 ^^^ b.setWidth 32 <<< 16 ^^^ c.setWidth 32 <<< 8 ^^^ d.setWidth 32 <<< 0 := by
  apply BitVec.eq_of_getLsbD_eq
  intro i hi
  simp only [BitVec.getLsbD_append, BitVec.getLsbD_xor, BitVec.getLsbD_shiftLeft, BitVec.getLsbD_setWidth]
  interval_cases i <;> simp

/-- `tau` substitutes each byte of a word in its place (rule R92). -/
theorem bytes32_tau (w : Word) : bytes32 (tau w) = (bytes32 w).map substitute := by
  rw [tau, append_eq_be32, bytes32_be32 _ rfl]
  rfl

theorem tau_injective : Function.Injective tau := by
  have bytes : Function.Injective bytes32 := Function.LeftInverse.injective be32_bytes32
  intro v w h
  have substituted := congrArg bytes32 h
  rw [bytes32_tau, bytes32_tau] at substituted
  exact bytes (List.map_injective_iff.mpr substitute_bijective.injective substituted)

/-- `T` is a bijection as `L` and the byte substitution are (rule R97). -/
theorem compound_bijective : Function.Bijective compound :=
  diffuse_bijective.comp (Finite.injective_iff_bijective.mp tau_injective)

/-- Settles O26: `S` has an inverse table, `L` is a linear map whose fourth iterate is a rotation, and `T` is composed of both. -/
theorem leafLaws : Obligations.LeafLaws :=
  ⟨fun v => substitute_bijective.existsUnique v, diffuse_xor, by decide, diffuse_rotateLeft, diffuse_bijective,
    compound_bijective⟩

/-- `T` of four bytes is the sum of the diffused substitutes in their places, `L` being linear (rule R98). -/
theorem compound_be32 (a0 a1 a2 a3 : Byte) : compound (be32 [a0, a1, a2, a3]) =
    diffuse ((substitute a0).setWidth 32 <<< 24) ^^^ diffuse ((substitute a1).setWidth 32 <<< 16) ^^^
      diffuse ((substitute a2).setWidth 32 <<< 8) ^^^ diffuse ((substitute a3).setWidth 32 <<< 0) := by
  have word : tau (be32 [a0, a1, a2, a3]) = be32 [substitute a0, substitute a1, substitute a2, substitute a3] := by
    rw [← be32_bytes32 (tau _), bytes32_tau, bytes32_be32 _ rfl]
    rfl
  rw [compound, word, ← append_eq_be32, append_eq_xor, diffuse_xor, diffuse_xor, diffuse_xor]

/-- A byte in the top place rotated to the other three places. -/
theorem rotateLeft_top_byte : ∀ v : Byte, (v.setWidth 32 <<< 24 : Word).rotateLeft 24 = v.setWidth 32 <<< 16 ∧
    (v.setWidth 32 <<< 24 : Word).rotateLeft 16 = v.setWidth 32 <<< 8 ∧
    (v.setWidth 32 <<< 24 : Word).rotateLeft 8 = v.setWidth 32 <<< 0 := by
  decide +kernel

/-- CXF in every state (rule R96). -/
theorem exec_cxf (w : Word) (s : State) : exec (.cxf w) s = .next (s.respond (0x00 :: bytes32 (compound w))) := rfl

/-- Settles O27: the compound transform is a sum of table entries, and the tables are rotations of the first since `L` commutes
with rotation. -/
theorem cxfEqualsFusedTables : Obligations.CxfEqualsFusedTables := by
  refine ⟨fun a0 a1 a2 a3 s => ?_, fun b => ?_, by decide, by decide⟩
  · rw [exec_cxf, compound_be32]
    rfl
  · obtain ⟨one, two, three⟩ := rotateLeft_top_byte (substitute b)
    simp only [← diffuse_rotateLeft]
    exact ⟨congrArg diffuse one.symm, congrArg diffuse two.symm, congrArg diffuse three.symm⟩

end Sys2Proof.Machine
end

section
/-!
PROOFS. Laws of counter mode (43_ctr_keystream.md section 3, rules R140, R142): every output byte is the input byte XORed with a byte that
only the round keys, the nonce and its index determine.
-/
namespace Sys2Proof.Machine

/-- Byte `i` of the keystream: of the block of counter `1 + i / 16` (rules R62, R137). -/
def keystreamByte (rk : Vector Word 32) (N : Nonce) (i : Nat) : Byte :=
  Block.byte (ksBlock rk N (BitVec.ofNat 32 (1 + i / 16))) (i % 16)

section
variable (rk : Vector Word 32) (N : Nonce)

/-- Counter mode byte by byte, beyond the end of the input too. -/
theorem getElem?_ctrXor_eq_map (D : List Byte) (i : Nat) :
    (ctrXor rk N D)[i]? = D[i]?.map (· ^^^ keystreamByte rk N i) := by
  cases hd : D[i]? with
  | none => simpa [ctrXor_length] using hd
  | some d =>
    obtain ⟨hi, -⟩ := List.getElem?_eq_some_iff.mp hd
    rw [ctrXor, getElem?_ctrXorBlocks rk N (hi.trans_le (le_ceil16 _)) hd, Nat.zero_add, dataCounter_eq]
    rfl

/-- The keystream taken twice cancels, whatever the nonce (rule R140). -/
theorem ctrXor_involutive (D : List Byte) : ctrXor rk N (ctrXor rk N D) = D := by
  refine List.ext_getElem? fun i => ?_
  rw [getElem?_ctrXor_eq_map, getElem?_ctrXor_eq_map, Option.map_map]
  have cancel : ((· ^^^ keystreamByte rk N i) ∘ (· ^^^ keystreamByte rk N i)) = id := by
    funext d
    simp
  rw [cancel, Option.map_id_fun, id]

/-- Byte `i` of block `j` of a byte string. -/
theorem getElem?_take_drop_block (D : List Byte) (j i : Nat) :
    ((D.drop (16 * j)).take 16)[i]? = if i < 16 then D[16 * j + i]? else none := by
  rw [List.getElem?_take, List.getElem?_drop]

/-- Block `j` of the output depends on block `j` of the input only (rule R140). -/
theorem ctrXor_block_congr {D E : List Byte} {j : Nat} (h : (D.drop (16 * j)).take 16 = (E.drop (16 * j)).take 16) :
    ((ctrXor rk N D).drop (16 * j)).take 16 = ((ctrXor rk N E).drop (16 * j)).take 16 := by
  refine List.ext_getElem? fun i => ?_
  have byte := congrArg (·[i]?) h
  simp only [getElem?_take_drop_block] at byte ⊢
  split
  · rename_i hi
    rw [if_pos hi, if_pos hi] at byte
    rw [getElem?_ctrXor_eq_map, getElem?_ctrXor_eq_map, byte]
  · rfl

/-- Of zero bytes counter mode gives the keystream (rule R140). -/
theorem ctrXor_zeros (n : Nat) : ctrXor rk N (zeros n) =
    ((List.range (ceil16 n)).flatMap fun j => bytesOfBlock (ksBlock rk N (BitVec.ofNat 32 (1 + j)))).take n := by
  refine List.ext_getElem? fun i => ?_
  rw [getElem?_ctrXor_eq_map, List.getElem?_take]
  split
  · rename_i hi
    have inBlocks : i / 16 < ceil16 n := by
      unfold ceil16
      omega
    rw [← List.flatMap_map, getElem?_flatMap_bytesOfBlock]
    simp [zeros, hi, inBlocks, keystreamByte]
  · rename_i hi
    simp [zeros, hi]

end

/-- Settles O34: each law is read off the formula for byte `i` of the output. -/
theorem counterModeLaws : Obligations.CounterModeLaws := fun rk N =>
  ⟨ctrXor_length rk N, ctrXor_involutive rk N, fun _ _ _ h => ctrXor_block_congr rk N h, ctrXor_zeros rk N⟩

/-- Settles O35: at most 2^32 - 2 blocks fit the bound, and they are counted from 1. -/
theorem dataCountersNeverWrap : Obligations.DataCountersNeverWrap := by
  intro n j k hn hj hk
  unfold ceil16 at hj hk
  have counter {m : Nat} (hm : m < (n + 15) / 16) : (BitVec.ofNat 32 (dataCounter m)).toNat = 1 + m := by
    rw [dataCounter_eq, BitVec.toNat_ofNat]
    omega
  refine ⟨by rw [dataCounter_eq]; omega, by rw [counter hj, dataCounter_eq], fun h => ?_, fun h => ?_⟩
  · have value : (BitVec.ofNat 32 Params.ctrBase).toNat = 0 := rfl
    rw [← h, counter hj] at value
    omega
  · have value := congrArg BitVec.toNat h
    rw [counter hj, counter hk] at value
    omega

end Sys2Proof.Machine
end

section
/-!
PROOFS. The field (44_galois_hash.md sections 1 and 3, rules R151, R154): a Block is determined by its class modulo the field polynomial,
so the multiplication has the laws of a commutative ring; the field polynomial is irreducible, so it has no zero divisors; and
the hash is a polynomial in the hash key.
-/
namespace Sys2Proof.Machine
open Polynomial

theorem gfPoly_injective : Function.Injective gfPoly := by
  intro A B h
  apply BitVec.eq_of_getLsbD_eq
  intro i hi
  have bit := congrArg (coeff · (127 - i)) h
  have position : 127 - (127 - i) = i := by omega
  have inBlock : 127 - i < 128 := by omega
  simp only [coeff_gfPoly, inBlock, true_and, gbit, position] at bit
  cases hA : A.getLsbD i <;> cases hB : B.getLsbD i <;> simp [hA, hB] at bit ⊢

/-- Different Blocks are different elements of the field: their polynomials are reduced (rule R12). -/
theorem gfElem_injective : Function.Injective gfElem := fun A B h => gfPoly_injective <|
  calc gfPoly A = gfPoly B %ₘ fieldPoly := gfPoly_eq_modByMonic h
    _ = gfPoly B := (gfPoly_eq_modByMonic rfl).symm

/-- Subtraction in the field is the exclusive or too (rule R154). -/
theorem gfElem_sub (A B : Block) : gfElem A - gfElem B = gfElem (A ^^^ B) := by
  rw [sub_eq_iff_eq_add, ← gfElem_xor, BitVec.xor_assoc, BitVec.xor_self, BitVec.xor_zero]

/-- The Block of the byte 0x80 and fifteen zero bytes is the polynomial 1 (rule R154). -/
theorem gfElem_one : gfElem 0x80000000000000000000000000000000 = 1 := by
  have bits : (Finset.range 128).filter (gbit 0x80000000000000000000000000000000 · = true) = {0} := by decide
  rw [gfElem, gfPoly, ← Finset.sum_filter, bits, Finset.sum_singleton, pow_zero, map_one]

/-- Settles O37: each law is the law of the ring of polynomials modulo the field polynomial. -/
theorem gfMulRingLaws : Obligations.GfMulRingLaws := by
  refine ⟨fun A B => ?_, fun A B C => ?_, fun A B C => ?_, fun A => ?_⟩ <;> apply gfElem_injective
  · rw [gfElem_gfMul, gfElem_gfMul, mul_comm]
  · rw [gfElem_gfMul, gfElem_gfMul, gfElem_gfMul, gfElem_gfMul, mul_assoc]
  · rw [gfElem_gfMul, gfElem_xor, gfElem_xor, gfElem_gfMul, gfElem_gfMul, add_mul]
  · rw [gfElem_gfMul, gfElem_one, mul_one]

/-- The square of a Block in the field. -/
def gfSquare (B : Block) : Block := gfMul B B

theorem gfElem_iterate_gfSquare (B : Block) (n : Nat) : gfElem (gfSquare^[n] B) = gfElem B ^ 2 ^ n := by
  induction n with
  | zero => rw [Function.iterate_zero_apply, pow_zero, pow_one]
  | succ n ih => rw [Function.iterate_succ_apply', gfSquare, gfElem_gfMul, ih, pow_succ, pow_mul, sq]

/-- The Block of the polynomial `x`. -/
def gfRoot : Block := 0x40000000000000000000000000000000

theorem gfElem_gfRoot : gfElem gfRoot = AdjoinRoot.mk fieldPoly X := by
  have bits : (Finset.range 128).filter (gbit gfRoot · = true) = {1} := by decide
  rw [gfElem, gfPoly, ← Finset.sum_filter, bits, Finset.sum_singleton, pow_one]

/-- The Block of `x ^ 2 ^ 64` modulo the field polynomial. -/
def gfRootSquared64 : Block := 0x6f9945a9e519a7229d4c1ad657f8a686

theorem iterate_64_gfSquare_gfRoot : gfSquare^[64] gfRoot = gfRootSquared64 := by decide +kernel

/-- Sixty-four more squarings lead from `x ^ 2 ^ 64` back to `x`. -/
theorem iterate_64_gfSquare_gfRootSquared64 : gfSquare^[64] gfRootSquared64 = gfRoot := by decide +kernel

theorem iterate_128_gfSquare_gfRoot : gfSquare^[128] gfRoot = gfRoot := by
  rw [Function.iterate_add_apply gfSquare 64 64, iterate_64_gfSquare_gfRoot, iterate_64_gfSquare_gfRootSquared64]

/-- The inverse of `x ^ 2 ^ 64 - x` modulo the field polynomial. -/
def gfRootInverse : Block := 0x180da934bf53158251c13dbb149f5279

theorem gfMul_gfRootInverse :
    gfMul gfRootInverse (gfRootSquared64 ^^^ gfRoot) = 0x80000000000000000000000000000000 := by decide +kernel

/-- The field polynomial divides `x ^ 2 ^ n - x` when `n` squarings lead from `x` back to `x`. -/
theorem fieldPoly_dvd_of_iterate_gfSquare {n : Nat} (h : gfSquare^[n] gfRoot = gfRoot) :
    fieldPoly ∣ X ^ Nat.card (ZMod 2) ^ n - X := by
  rw [← AdjoinRoot.mk_eq_mk, map_pow, ← gfElem_gfRoot, Nat.card_zmod, ← gfElem_iterate_gfSquare, h]

/-- A multiple of `x ^ 2 ^ 64 - x` is 1 modulo the field polynomial: the two have no factor in common. -/
theorem fieldPoly_dvd_mul_sub_one :
    fieldPoly ∣ gfPoly gfRootInverse * (X ^ Nat.card (ZMod 2) ^ 64 - X) - 1 := by
  rw [← AdjoinRoot.mk_eq_mk, map_mul, map_sub, map_pow, map_one, ← gfElem_gfRoot, Nat.card_zmod,
    ← gfElem_iterate_gfSquare, iterate_64_gfSquare_gfRoot, ← gfElem_one, ← gfMul_gfRootInverse, gfElem_gfMul, ← gfElem_sub]
  rfl

/-- A divisor of 128 that does not divide 64 is 128. -/
theorem eq_128_of_dvd {d : Nat} (h : d ∣ 128) (h' : ¬ d ∣ 64) : d = 128 := by
  obtain ⟨k, hk, rfl⟩ := (Nat.dvd_prime_pow Nat.prime_two (m := 7)).mp h
  have large : ¬ k ≤ 6 := fun small => h' (pow_dvd_pow 2 small)
  rw [show k = 7 by omega]
  rfl

/-- An irreducible factor of the field polynomial has degree 128: its degree divides 128 since the polynomial divides
`x ^ 2 ^ 128 - x`, and not 64 since the polynomial has no factor in common with `x ^ 2 ^ 64 - x` (Rabin's test). -/
theorem natDegree_eq_of_irreducible_dvd_fieldPoly {g : (ZMod 2)[X]} (hg : Irreducible g) (h : g ∣ fieldPoly) :
    g.natDegree = 128 := by
  have divides : g.natDegree ∣ 128 := hg.natDegree_dvd_of_dvd_X_pow_card_pow_sub_X
    (h.trans (fieldPoly_dvd_of_iterate_gfSquare iterate_128_gfSquare_gfRoot))
  refine eq_128_of_dvd divides fun small => hg.not_isUnit (isUnit_of_dvd_one ?_)
  have common : g ∣ gfPoly gfRootInverse * (X ^ Nat.card (ZMod 2) ^ 64 - X) :=
    (hg.natDegree_dvd_iff_dvd_X_pow_card_pow_sub_X.mp small).mul_left _
  exact (dvd_sub_right common).mp (h.trans fieldPoly_dvd_mul_sub_one)

/-- The field polynomial is irreducible: what is left beside a factor of degree 128 is a constant (rule R154). -/
theorem fieldPoly_irreducible : Irreducible fieldPoly := by
  have degree : fieldPoly.natDegree = 128 := natDegree_eq_of_degree_eq_some degree_fieldPoly
  have nonunit : ¬ IsUnit fieldPoly := fun unit => by
    rw [natDegree_eq_zero_of_isUnit unit] at degree
    exact absurd degree (by norm_num)
  obtain ⟨g, hg, dvd⟩ := WfDvdMonoid.exists_irreducible_factor nonunit fieldPoly_monic.ne_zero
  have same : fieldPoly.natDegree ≤ g.natDegree := by
    rw [degree, natDegree_eq_of_irreducible_dvd_fieldPoly hg dvd]
  exact (associated_of_dvd_of_natDegree_le dvd fieldPoly_monic.ne_zero same).irreducible hg

/-- Settles O38: modulo an irreducible polynomial a product is zero only if a factor is. -/
theorem gfMulHasNoZeroDivisors : Obligations.GfMulHasNoZeroDivisors := by
  intro A B h
  have : Fact (Irreducible fieldPoly) := ⟨fieldPoly_irreducible⟩
  have product : gfElem A * gfElem B = 0 := by rw [← gfElem_gfMul, h, gfElem_zero]
  obtain hA | hB := mul_eq_zero.mp product
  · exact .inl (gfElem_injective (hA.trans gfElem_zero.symm))
  · exact .inr (gfElem_injective (hB.trans gfElem_zero.symm))

/-- The hash in the field: each block times the power of the hash key that the blocks from it on make (rule R151). -/
theorem gfElem_ghash (h : Block) (msg : List Block) : gfElem (ghash h msg) =
    ∑ i ∈ Finset.range msg.length, gfElem (msg.getD i 0) * gfElem h ^ (msg.length - i) := by
  induction msg using List.reverseRecOn with
  | nil => exact gfElem_zero
  | append_singleton msg M ih =>
    have earlier : ∀ i ∈ Finset.range msg.length,
        gfElem ((msg ++ [M]).getD i 0) * gfElem h ^ (msg.length + 1 - i) =
          gfElem (msg.getD i 0) * gfElem h ^ (msg.length - i) * gfElem h := fun i hi => by
      have inMsg : i < msg.length := Finset.mem_range.mp hi
      rw [List.getD_append _ _ _ _ inMsg, Nat.sub_add_comm inMsg.le, pow_succ, mul_assoc]
    rw [ghash_append_singleton, gfElem_gfMul, gfElem_xor, ih, List.length_append, List.length_singleton,
      Finset.sum_range_succ, Finset.sum_congr rfl earlier, ← Finset.sum_mul, add_mul]
    simp

/-- The digest's polynomial is the reduced one of its class (rule R151). -/
theorem gfPoly_ghash (h : Block) (msg : List Block) : gfPoly (ghash h msg) =
    (∑ i ∈ Finset.range msg.length, gfPoly (msg.getD i 0) * gfPoly h ^ (msg.length - i)) %ₘ fieldPoly := by
  apply gfPoly_eq_modByMonic
  rw [gfElem_ghash]
  simp only [map_sum, map_mul, map_pow, gfElem]

/-- Settles O40: the digest is `ghash`, whose polynomial is the reduced closed form. -/
theorem ghashEvaluatesThePolynomial : Obligations.GhashEvaluatesThePolynomial := by
  intro h msg s
  have closedForm := gfPoly_ghash h msg
  unfold fieldPoly at closedForm
  exact ⟨ghash h msg, closedForm, exec_ghash h msg s⟩

end Sys2Proof.Machine
end

section
/-!
PROOFS. The hash input and tampering (45_aead.md sections 1 and 3, rules R170, R177, R179): where the operands stand in the hash input, and
that for a nonzero hash key a change of one Block changes the hash.
-/
namespace Sys2Proof.Machine

/-- The ciphertext starts at the Block boundary after the AAD (rule R170). -/
theorem ciphertext_of_hashInput (A C : List Byte) : ((hashInput A C).drop (16 * ceil16 A.length)).take C.length = C := by
  rw [hashInput, List.append_assoc, List.drop_left' (pad16_length A), pad16, List.append_assoc, List.take_left]

/-- The hash input starts with the AAD (rule R170). -/
theorem aad_of_hashInput (A C : List Byte) : (hashInput A C).take A.length = A := by
  rw [hashInput, pad16, List.append_assoc, List.append_assoc, List.take_left]

/-- Settles O41: the padded strings are whole Blocks, and Blocks taken from whole Blocks spell them out. -/
theorem hashInputIsWholeBlocks : Obligations.HashInputIsWholeBlocks := by
  intro A C
  refine ⟨hashInput_length A C, ?_, ciphertext_of_hashInput A C⟩
  rw [flatMap_blocksOf_hashInput, hashInput, lengthTrailer, List.append_assoc _ (be64 _) (be64 _)]

/-- Under the zero hash key every product, and so the hash, is zero (rule R179). -/
theorem ghash_zero (msg : List Block) : ghash 0 msg = 0 := by
  have product (B : Block) : gfMul B 0 = 0 := gfElem_injective (by rw [gfElem_gfMul, gfElem_zero, mul_zero])
  induction msg using List.reverseRecOn with
  | nil => rfl
  | append_singleton msg M _ => rw [ghash_append_singleton, product]

/-- Settles O45: a message that verifies under a tag expects that tag; with the hash zero the tag is the mask. -/
theorem wrongTagsFail : Obligations.WrongTagsFail := by
  intro N A C tag s c hN hC hA hs
  refine ⟨fun verifies tag' other => ?_, fun zero => ?_⟩
  · have expected : tag = aeadTag c.rk c.h (nonceOfBytes N) A C :=
      not_not.mp fun ne => verifies (exec_aeadd_of_tag_ne hN hA hs hC ne)
    exact exec_aeadd_of_tag_ne hN hA hs hC (expected ▸ other)
  · rw [aeadTag, zero, ghash_zero]
    exact BitVec.zero_xor

/-- Multiplication by a nonzero Block is injective, there being no zero divisors (rule R154). -/
theorem gfMul_left_injective {h : Block} (hh : h ≠ 0) : Function.Injective (gfMul · h) := by
  intro A B e
  obtain ⟨-, -, distributes, -⟩ := gfMulRingLaws
  have zero : gfMul (A ^^^ B) h = 0 := by
    rw [distributes, show gfMul A h = gfMul B h from e, BitVec.xor_self]
    rfl
  exact BitVec.xor_eq_zero_iff.mp ((gfMulHasNoZeroDivisors _ _ zero).resolve_right hh)

/-- Later blocks keep different accumulators different. -/
theorem foldl_ghash_injective {h : Block} (hh : h ≠ 0) (msg : List Block) :
    Function.Injective fun Y => msg.foldl (fun Y B => gfMul (Y ^^^ B) h) Y := by
  induction msg with
  | nil => exact Function.injective_id
  | cons B msg ih => exact fun Y Y' e => (BitVec.xor_left_inj _).mp (gfMul_left_injective hh (ih e))

/-- Two messages that differ in one block have different hashes under a nonzero hash key (rule R179). -/
theorem ghash_ne_of_block_ne {h : Block} (hh : h ≠ 0) (before after : List Block) {B B' : Block} (ne : B ≠ B') :
    ghash h (before ++ B :: after) ≠ ghash h (before ++ B' :: after) := by
  simp only [ghash, List.foldl_append, List.foldl_cons]
  exact fun e => ne ((BitVec.xor_right_inj _).mp (gfMul_left_injective hh (foldl_ghash_injective hh after e)))

/-- Two byte strings of one length that agree outside the bytes of Block `j`. -/
def AgreeOutside (j : Nat) (X X' : List Byte) : Prop :=
  X'.length = X.length ∧ ∀ i : Nat, i / 16 ≠ j → X'[i]? = X[i]?

section
variable {j : Nat} {X X' : List Byte}

theorem agreeOutside_append (agree : AgreeOutside j X X') (Z : List Byte) : AgreeOutside j (X ++ Z) (X' ++ Z) := by
  obtain ⟨len, bytes⟩ := agree
  refine ⟨by simp [len], fun i hi => ?_⟩
  rw [List.getElem?_append, List.getElem?_append, len, bytes i hi]

/-- Whole Blocks put in front move the Block by as many. -/
theorem agreeOutside_append_left {n : Nat} {Z : List Byte} (hZ : Z.length = 16 * n) (agree : AgreeOutside j X X') :
    AgreeOutside (n + j) (Z ++ X) (Z ++ X') := by
  obtain ⟨len, bytes⟩ := agree
  refine ⟨by simp [len], fun i hi => ?_⟩
  rw [List.getElem?_append, List.getElem?_append]
  split
  · rfl
  · exact bytes _ (by omega)

theorem agreeOutside_pad16 (agree : AgreeOutside j X X') : AgreeOutside j (pad16 X) (pad16 X') := by
  rw [pad16, pad16, agree.1]
  exact agreeOutside_append agree _

/-- Block `k` of a byte string is made of its bytes `16 k` to `16 k + 15` (rule R170). -/
theorem getElem?_takeBlocks (m : Nat) (bs : List Byte) (k : Nat) :
    (takeBlocks m bs)[k]? = if k < m then some (blockOfBytes ((bs.drop (16 * k)).take 16)) else none := by
  induction m generalizing bs k with
  | zero => simp [takeBlocks]
  | succ m ih =>
    cases k with
    | zero => simp [takeBlocks]
    | succ k =>
      rw [takeBlocks, List.getElem?_cons_succ, ih, List.drop_drop, show 16 + 16 * k = 16 * (k + 1) by ring]
      simp only [Nat.add_lt_add_iff_right]

/-- Byte strings that agree outside Block `j` have the same other Blocks. -/
theorem getElem?_blocksOf_of_agreeOutside (agree : AgreeOutside j X X') {k : Nat} (hk : k ≠ j) :
    (blocksOf X')[k]? = (blocksOf X)[k]? := by
  have bytes : (X'.drop (16 * k)).take 16 = (X.drop (16 * k)).take 16 := by
    refine List.ext_getElem? fun i => ?_
    rw [getElem?_take_drop_block, getElem?_take_drop_block]
    split
    · exact agree.2 _ (by omega)
    · rfl
  rw [blocksOf, blocksOf, getElem?_takeBlocks, getElem?_takeBlocks, agree.1, bytes]

end

/-- Two different lists of one length that agree outside position `j` are one list around different entries. -/
theorem exists_split_of_agree {α : Type} {M M' : List α} {j : Nat} (len : M'.length = M.length) (ne : M' ≠ M)
    (agree : ∀ k ≠ j, M'[k]? = M[k]?) : ∃ before B B' after, B' ≠ B ∧ M = before ++ B :: after ∧
      M' = before ++ B' :: after := by
  have inside : j < M.length := by
    by_contra outside
    refine ne (List.ext_getElem? fun k => ?_)
    by_cases hk : k = j
    · rw [List.getElem?_eq_none (by omega), List.getElem?_eq_none (by omega)]
    · exact agree k hk
  have before : M'.take j = M.take j := by
    refine List.ext_getElem? fun k => ?_
    rw [List.getElem?_take, List.getElem?_take]
    split
    · exact agree k (by omega)
    · rfl
  have after : M'.drop (j + 1) = M.drop (j + 1) := by
    refine List.ext_getElem? fun k => ?_
    rw [List.getElem?_drop, List.getElem?_drop, agree _ (by omega)]
  have shape : M = M.take j ++ M[j] :: M.drop (j + 1) := by simp
  have shape' : M' = M.take j ++ M'[j] :: M.drop (j + 1) := by simp [← before, ← after]
  refine ⟨M.take j, M[j], M'[j], M.drop (j + 1), fun same => ne ?_, shape, shape'⟩
  rw [shape', same, ← shape]

/-- Different hash inputs that agree outside one Block have different tags under a nonzero hash key (rule R179). -/
theorem aeadTag_ne_of_agreeOutside {rk : Vector Word 32} {Hk : Block} {N : Nonce} {A A' C C' : List Byte} {j : Nat} (hh : Hk ≠ 0)
    (agree : AgreeOutside j (hashInput A C) (hashInput A' C')) (ne : hashInput A' C' ≠ hashInput A C) :
    aeadTag rk Hk N A C ≠ aeadTag rk Hk N A' C' := by
  have blocks : blocksOf (hashInput A' C') ≠ blocksOf (hashInput A C) := fun same => ne <| by
    rw [← flatMap_blocksOf_hashInput, same, flatMap_blocksOf_hashInput]
  have len : (blocksOf (hashInput A' C')).length = (blocksOf (hashInput A C)).length := by
    simp [blocksOf, agree.1]
  obtain ⟨before, B, B', after, differ, shape, shape'⟩ := exists_split_of_agree len blocks fun k hk =>
    getElem?_blocksOf_of_agreeOutside agree hk
  intro same
  rw [aeadTag, aeadTag, BitVec.xor_left_inj, shape, shape'] at same
  exact ghash_ne_of_block_ne hh before after differ.symm same

/-- A change of the ciphertext inside one block changes one Block of the hash input. -/
theorem agreeOutside_hashInput_ciphertext {A C C' : List Byte} {j : Nat} (agree : AgreeOutside j C C') :
    AgreeOutside (ceil16 A.length + j) (hashInput A C) (hashInput A C') := by
  rw [hashInput, hashInput, lengthTrailer, lengthTrailer, agree.1]
  exact agreeOutside_append (agreeOutside_append_left (pad16_length A) (agreeOutside_pad16 agree)) _

/-- So does a change of the AAD inside one block. -/
theorem agreeOutside_hashInput_aad {A A' C : List Byte} {j : Nat} (agree : AgreeOutside j A A') :
    AgreeOutside j (hashInput A C) (hashInput A' C) := by
  rw [hashInput, hashInput, lengthTrailer, lengthTrailer, agree.1]
  exact agreeOutside_append (agreeOutside_append (agreeOutside_pad16 agree) _) _

/-- Settles O46: the change makes another hash input, which differs in one Block, and so another tag than the one expected. -/
theorem oneBlockChangesAreDetected : Obligations.OneBlockChangesAreDetected := by
  intro N A C tag s c hN hC hA hs hh expected
  subst expected
  refine ⟨fun C' j len ne bytes => ?_, fun A' j len ne bytes => ?_⟩
  · refine exec_aeadd_of_tag_ne hN hA hs (len.trans_le hC)
      (aeadTag_ne_of_agreeOutside hh (agreeOutside_hashInput_ciphertext ⟨len, bytes⟩) fun same => ne ?_)
    rw [← ciphertext_of_hashInput A C', same, len, ciphertext_of_hashInput]
  · refine exec_aeadd_of_tag_ne hN (len.trans_le hA) hs hC
      (aeadTag_ne_of_agreeOutside hh (agreeOutside_hashInput_aad ⟨len, bytes⟩) fun same => ne ?_)
    rw [← aad_of_hashInput A' C, same, len, aad_of_hashInput]

/-- Of two empty strings the hash input is one Block of zero lengths (rule R177). -/
theorem hashInput_nil_nil : hashInput [] [] = zeros 16 := by decide

/-- So its hash is zero under every hash key, and the tag is the tag mask (rule R177). -/
theorem aeadTag_nil_nil (rk : Vector Word 32) (Hk : Block) (N : Nonce) : aeadTag rk Hk N [] [] = tagMask rk N := by
  have blocks : blocksOf (hashInput [] []) = [0] := by decide
  have product : gfMul 0 Hk = 0 := gfElem_injective (by rw [gfElem_gfMul, gfElem_zero, zero_mul])
  have hash : ghash Hk [0] = gfMul 0 Hk := rfl
  rw [aeadTag, blocks, hash, product]
  exact BitVec.zero_xor

/-- The bytes AEADE answers when no cause of an error applies (rules R74, R175): the ciphertext with its length, and the tag. -/
theorem exec_aeade_bytes {N A P : List Byte} {s : State} {c : KeyContext} (hN : N.length = 12) (hA : A.length ≤ 2 ^ 61 - 1)
    (hP : P.length ≤ 2 ^ 36 - 32) (hs : s.keyCtx = some c) : exec (.aeade N A P) s = .next (s.respond
      (0x00 :: (be64 P.length ++ (aeadEncrypt c.rk c.h (nonceOfBytes N) A P).1 ++
        bytesOfBlock (aeadEncrypt c.rk c.h (nonceOfBytes N) A P).2))) := by
  rw [exec_aeade_of_ok hN hA hs hP]
  simp [Field.encode, aeadEncrypt, ctrXor_length]

/-- Settles O47: the tag of two empty strings is the Block of counter 0, and an empty string pads to nothing. -/
theorem emptyInputsAreValid : Obligations.EmptyInputsAreValid := by
  have pad : pad16 [] = [] := rfl
  have bits : be64 (8 * ([] : List Byte).length) = be64 0 := rfl
  refine ⟨fun N s c hN hs => ⟨tagMask c.rk (nonceOfBytes N), exec_ksb hN hs 0, ?_⟩, hashInput_nil_nil, fun C => ?_, fun A => ?_⟩
  · have encrypt : aeadEncrypt c.rk c.h (nonceOfBytes N) [] [] = ([], tagMask c.rk (nonceOfBytes N)) :=
      congrArg (Prod.mk []) (aeadTag_nil_nil c.rk c.h (nonceOfBytes N))
    rw [exec_aeade_bytes hN (by simp) (by simp) hs, encrypt, List.append_nil]
    rfl
  · rw [hashInput, pad, List.nil_append, lengthTrailer, bits, List.append_assoc]
  · rw [hashInput, pad, List.append_nil, lengthTrailer, bits, List.append_assoc]

/-- The same keystream on two byte strings cancels in their sum (rules R180, R226). -/
theorem xorBytes_ctrXor (rk : Vector Word 32) (N : Nonce) (P P' : List Byte) :
    xorBytes (ctrXor rk N P) (ctrXor rk N P') = xorBytes P P' := by
  refine List.ext_getElem? fun i => ?_
  simp only [xorBytes, List.getElem?_zipWith, getElem?_ctrXor_eq_map]
  cases P[i]? with
  | none => rfl
  | some d =>
    cases P'[i]? with
    | none => rfl
    | some d' =>
      have cancel : (d ^^^ keystreamByte rk N i) ^^^ (d' ^^^ keystreamByte rk N i) = d ^^^ d' := by
        rw [BitVec.xor_comm d', BitVec.xor_assoc, ← BitVec.xor_assoc (keystreamByte rk N i), BitVec.xor_self,
          BitVec.zero_xor]
      exact congrArg some cancel

/-- Settles O48: AEADE looks at no earlier nonce, and under one nonce both ciphertexts have the same keystream. -/
theorem nonceReuseIsNotDetected : Obligations.NonceReuseIsNotDetected :=
  fun _ _ _ _ _ _ _ hN hP hP' hA hA' hs => ⟨_, _, _, _, _, ctrXor_length .., ctrXor_length .., exec_aeade_bytes hN hA hP hs, rfl,
    exec_aeade_bytes hN hA' hP' hs, xorBytes_ctrXor ..⟩

end Sys2Proof.Machine
end

section
/-!
PROOFS. The document's function forms (30_encoding.md section 5, rule R81): the frames of an expansion, run from any state, install the key
and then answer the form's command under it.
-/
namespace Sys2Proof.Machine

/-- The frames of the commands, run from any state, are all taken, and `R` is the last response. -/
def RunAnswers (cmds : List Instr) (R : Frame) : Prop :=
  ∀ s : State, ∃ t : State,
    Sys2Proof.core.run cmds.length { s with inputs := cmds.map fun i => .command (encode i) } = .next t ∧
      t.inputs = [] ∧ t.responses.getLast? = some R

theorem runAnswers_single {i : Instr} {R : Frame} (wf : i.wellFormed = true)
    (h : ∀ s, ∃ ctx, exec i s = .next { s with keyCtx := ctx, responses := s.responses ++ [R] }) : RunAnswers [i] R := by
  intro s
  obtain ⟨ctx, e⟩ := h { s with inputs := [] }
  exact ⟨_, (core_run_succ ((step_encode wf s []).trans e) 0).trans (core_run_zero _), rfl, List.getLast?_concat⟩

/-- A command that changes no context answers from any state as it does in each. -/
theorem runAnswers_unkeyed {i : Instr} {R : Frame} (wf : i.wellFormed = true) (h : ∀ s, exec i s = .next (s.respond R)) :
    RunAnswers [i] R := runAnswers_single wf fun s => ⟨s.keyCtx, h s⟩

section
variable {key : List Byte} (len : key.length = 16)
include len

theorem ksched_wellFormed : (Instr.ksched key).wellFormed = true := by
  simp [Instr.wellFormed, Instr.fields, Field.wellFormed, len]

/-- A keyed form: KSCHED installs the context under which its command then answers, whatever was installed before (rule R81). -/
theorem runAnswers_ksched_cons {i : Instr} {R : Frame} (wf : i.wellFormed = true)
    (h : ∀ s, s.keyCtx = some (contextOfKey (blockOfBytes key)) → exec i s = .next (s.respond R)) :
    RunAnswers [.ksched key, i] R := by
  intro s
  have first := (step_encode (ksched_wellFormed len) s [.command (encode i)]).trans (exec_ksched_of_length len _)
  have second := (step_encode wf ((s.install (contextOfKey (blockOfBytes key))).respond [0x00]) []).trans (h _ rfl)
  exact ⟨_, (core_run_succ first 1).trans ((core_run_succ second 0).trans (core_run_zero _)), rfl, List.getLast?_concat⟩

end

/-- AEADE within the bounds fits a frame. -/
theorem aeade_wellFormed {N A P : List Byte} (hN : N.length = 12) (hA : A.length ≤ 2 ^ 61 - 1) (hP : P.length ≤ 2 ^ 36 - 32) :
    (Instr.aeade N A P).wellFormed = true := by
  simp only [Instr.wellFormed, Instr.fields, Field.wellFormed, List.all_cons, List.all_nil, Bool.and_true, Bool.and_eq_true,
    decide_eq_true_eq]
  omega

/-- So does AEADD. -/
theorem aeadd_wellFormed {N A C : List Byte} (hN : N.length = 12) (hA : A.length ≤ 2 ^ 61 - 1) (hC : C.length ≤ 2 ^ 36 - 32)
    (tag : Block) : (Instr.aeadd N A C tag).wellFormed = true := by
  simp only [Instr.wellFormed, Instr.fields, Field.wellFormed, List.all_cons, List.all_nil, Bool.and_true, Bool.and_eq_true,
    decide_eq_true_eq]
  omega

theorem ksb_wellFormed {N : List Byte} (hN : N.length = 12) (ctr : Word) : (Instr.ksb N ctr).wellFormed = true := by
  simp [Instr.wellFormed, Instr.fields, Field.wellFormed, hN]

theorem ghash_wellFormed (h : Block) {msg : List Block} (hmsg : msg.length < 2 ^ 64) : (Instr.ghash h msg).wellFormed = true := by
  simpa [Instr.wellFormed, Instr.fields, Field.wellFormed] using hmsg

/-- AEADD of what AEADE answers, under the same context, nonce and AAD, answers the plaintext with its length (rule R178). -/
theorem exec_aeadd_aeadEncrypt {N A P : List Byte} {s : State} {c : KeyContext} (hN : N.length = 12)
    (hA : A.length ≤ 2 ^ 61 - 1) (hP : P.length ≤ 2 ^ 36 - 32) (hs : s.keyCtx = some c) :
    exec (.aeadd N A (aeadEncrypt c.rk c.h (nonceOfBytes N) A P).1 (aeadEncrypt c.rk c.h (nonceOfBytes N) A P).2) s =
      .next (s.respond (0x00 :: (be64 P.length ++ P))) := by
  have len : (aeadEncrypt c.rk c.h (nonceOfBytes N) A P).1.length = P.length := ctrXor_length ..
  have plaintext : ctrXor c.rk (nonceOfBytes N) (aeadEncrypt c.rk c.h (nonceOfBytes N) A P).1 = P := ctrXor_involutive ..
  have answer := exec_aeadd_of_tag_eq (tag := (aeadEncrypt c.rk c.h (nonceOfBytes N) A P).2) hN hA hs (len.trans_le hP) rfl
  rw [answer, plaintext]
  simp [Field.encode]

/-- Settles O50: each form is one command, or KSCHED and then one command under the context of its key. -/
theorem documentFormsExpandToCommands : Obligations.DocumentFormsExpandToCommands := by
  refine ⟨fun b => runAnswers_unkeyed rfl (exec_sbox b), fun w => runAnswers_unkeyed rfl (exec_diff w),
    fun w => runAnswers_unkeyed rfl (exec_cxf w), fun h msg hmsg => runAnswers_unkeyed (ghash_wellFormed h hmsg) (exec_ghash h msg),
    fun key N A P blk ctr len hN hP hA => ?_⟩
  have cipherLen (c : KeyContext) : (aeadEncrypt c.rk c.h (nonceOfBytes N) A P).1.length ≤ 2 ^ 36 - 32 :=
    (ctrXor_length ..).trans_le hP
  refine ⟨?scheduleKey, ?encrypt, ?decrypt, ?keystreamBlock, ?hashSubkey, ?tagMask, ?aeadEncrypt, ?aeadDecrypt⟩
  case scheduleKey => exact runAnswers_single (ksched_wellFormed len) fun s => ⟨_, exec_ksched_of_length len s⟩
  case encrypt => exact runAnswers_ksched_cons len rfl fun s hs => exec_encb hs blk
  case decrypt => exact runAnswers_ksched_cons len rfl fun s hs => exec_decb hs blk
  case keystreamBlock => exact runAnswers_ksched_cons len (ksb_wellFormed hN ctr) fun s hs => exec_ksb hN hs ctr
  case hashSubkey => exact runAnswers_ksched_cons len rfl fun s hs => exec_encb hs 0
  case tagMask => exact runAnswers_ksched_cons len (ksb_wellFormed hN 0) fun s hs => exec_ksb hN hs 0
  case aeadEncrypt => exact runAnswers_ksched_cons len (aeade_wellFormed hN hA hP) fun s hs => exec_aeade_bytes hN hA hP hs
  case aeadDecrypt =>
    exact runAnswers_ksched_cons len (aeadd_wellFormed hN hA (cipherLen _) _) fun s hs => exec_aeadd_aeadEncrypt hN hA hP hs

end Sys2Proof.Machine
end
